-- ==== Sys2Proof/Word.lean ====
section
/-! DEFINITION. The words that cross JPCORE's interface or stand in its registers, and the index types of its
storage spaces (spec/00_scope.md R5, R6, R9; spec/10_state.md R20, R21; spec/45_pipeline.md R195). -/

namespace Sys2Proof

/-- One byte of the input stream, of the frame buffer, or of the command stream (20_memory.md R50). -/
abbrev Byte := BitVec 8

/-- A distance: 16 bits, unsigned (10_state.md R21). -/
abbrev Dist := BitVec 16

/-- A decoded sample: 13 bits, unsigned (41_decoder.md R131). -/
abbrev Sample := BitVec 13

/-- An entry of the sine ROM: 30 bits (20_memory.md R50). -/
abbrev SinWord := BitVec 30

/-- A sample index, 0..97 (`N = 98`, 00_scope.md R6). -/
abbrev SampleIdx := Fin 98

/-- A byte address of the frame buffer, 0..195 (`PAY_LEN = 196`, 00_scope.md R6; 10_state.md R25). -/
abbrev FbAddr := Fin 196

/-- Match progress, 0..6: a 3-bit register whose value 7 the spec calls unreachable (10_state.md R20, R22). -/
abbrev MatchPos := Fin 7

/-- `INF`, the sentinel JP calls "infinite" (10_state.md R21). -/
def infDist : Dist := 0xFFFF

/-- The input events (45_pipeline.md R195). -/
inductive InEvent where
  /-- The byte source's read returned one byte. -/
  | byte (b : Byte)
  /-- The byte source reported end of input. -/
  | eos
  /-- The byte source reported a failed read. -/
  | ioErr
  /-- The actuator sink took the pending command. -/
  | sinkAck
  /-- The actuator sink reported a failed command write. -/
  | sinkFail
  /-- Reset asserted. -/
  | reset
  deriving DecidableEq, Repr

end Sys2Proof
end

