-- ==== Sys2Proof/Syntax.lean ====
section
/-! DEFINITION. The operations of JPCORE, one constructor per row of spec/opcode_table.json
(spec/30_encoding.md R96). An operation's operands are those its own rule names, less what it reads from the state. -/

namespace Sys2Proof

/-- The 25 operations. The first ten, and the last seven less FRM.DISPATCH, are selected by an input event
(30_encoding.md R87); the others are the stages of one frame (30_encoding.md R88). -/
inductive Instr where
  /-- SYN.SKIP: discard a byte that does not start a header (40_synchronizer.md R111). -/
  | synSkip (b : Byte)
  /-- SYN.ADV at `mp = 0`, byte `02` (40_synchronizer.md R112). -/
  | synAdv0
  /-- SYN.ADV at `mp = 1`, byte `80` (40_synchronizer.md R112). -/
  | synAdv1
  /-- SYN.ADV at `mp = 2`, byte `CE` (40_synchronizer.md R112). -/
  | synAdv2
  /-- SYN.ADV at `mp = 3`, byte `00` (40_synchronizer.md R112). -/
  | synAdv3
  /-- SYN.ADV at `mp = 4`, byte `B0` (40_synchronizer.md R112). -/
  | synAdv4
  /-- SYN.LOCK: the sixth signature byte, `65` (40_synchronizer.md R113). -/
  | synLock
  /-- SYN.DROP: a partial match fails on byte `b` (40_synchronizer.md R114). -/
  | synDrop (b : Byte)
  /-- PAY.PUT: store a payload byte that is not the last (40_synchronizer.md R115). -/
  | payPut (b : Byte)
  /-- PAY.LAST: store the 196th payload byte and process the frame (40_synchronizer.md R116). -/
  | payLast (b : Byte)
  /-- DEC.SAMPLE(i) (41_decoder.md R131). -/
  | decSample (i : SampleIdx)
  /-- CMD.EMIT (44_selector.md R180). -/
  | cmdEmit
  /-- PRJ.PROJECT(i) (42_projector.md R141). -/
  | prjProject (i : SampleIdx)
  /-- CAL.MIN(i) (43_calibrator.md R156). -/
  | calMin (i : SampleIdx)
  /-- CAL.FIN(i) (43_calibrator.md R157). -/
  | calFin (i : SampleIdx)
  /-- SEL.QUAL(i) (44_selector.md R176). -/
  | selQual (i : SampleIdx)
  /-- SEL.ARGMIN (44_selector.md R178). -/
  | selArgmin
  /-- SEL.FIRE (44_selector.md R179). -/
  | selFire
  /-- FRM.DISPATCH (45_pipeline.md R200). -/
  | frmDispatch
  /-- SNK.ACK (45_pipeline.md R204). -/
  | snkAck
  /-- ERR.EOS (60_exceptions.md R222). -/
  | errEos
  /-- ERR.SHORT (60_exceptions.md R223). -/
  | errShort
  /-- ERR.IO (60_exceptions.md R224). -/
  | errIo
  /-- SNK.FAIL (60_exceptions.md R225). -/
  | snkFail
  /-- RESET (70_reset_and_hazards.md R260). -/
  | reset
  deriving DecidableEq, Repr

end Sys2Proof
end

