-- ==== Sys2Proof/WellFormed.lean ====
section
/-! DEFINITION. Which operation terms exist in JPCORE (spec/30_encoding.md R81, R87). Indices are bounded by their type;
the one check left is on the byte of SYN.SKIP. -/

namespace Sys2Proof

/-- A term is well formed when some state and event select it. SYN.SKIP is selected by every byte but `02`
(40_synchronizer.md R111); SYN.DROP by every byte at all, since no byte continues the signature at each of `mp = 1..5`
(40_synchronizer.md R114); PAY.PUT and PAY.LAST by every byte (30_encoding.md R81). -/
def Instr.wf : Instr → Bool
  | .synSkip b => b != 0x02
  | .synAdv0 | .synAdv1 | .synAdv2 | .synAdv3 | .synAdv4 | .synLock => true
  | .synDrop _ => true
  | .payPut _ | .payLast _ => true
  | .decSample _ | .prjProject _ | .calMin _ | .calFin _ | .selQual _ => true
  | .selArgmin | .selFire | .cmdEmit | .frmDispatch => true
  | .snkAck | .errEos | .errShort | .errIo | .snkFail | .reset => true

end Sys2Proof
end

