-- ==== Sys2Proof/Decode.lean ====
section
/-! DEFINITION. What JPCORE decodes and encodes: the header signature, the selection of an operation by an input event
(spec/30_encoding.md R81, R87) and by a frame's place in the session (R88), the sample pair `S16` (R82, R85), the
command byte `C8` (R83, R86), the frame `F1616` (R84), and the encoders. -/

namespace Sys2Proof

/-! ### The signature and the selection of an operation by an event -/

/-- `SIG[0..5]` (00_scope.md R6; 30_encoding.md R81). -/
def sigTable : List Byte := [0x02, 0x80, 0xCE, 0x00, 0xB0, 0x65]

/-- The byte equals `SIG[mp]`; at `mp = 6` there is no such entry and no byte continues the signature
(30_encoding.md R81). -/
def continuesSig (mp : MatchPos) (b : Byte) : Bool := sigTable[mp.val]? == some b

/-- The operation that a byte equal to `SIG[mp]` selects at `mp < 6` (30_encoding.md R87). -/
def advanceAt (mp : MatchPos) : Instr :=
  match mp.val with
  | 0 => .synAdv0
  | 1 => .synAdv1
  | 2 => .synAdv2
  | 3 => .synAdv3
  | 4 => .synAdv4
  | _ => .synLock

/-- The operation a byte selects, for every byte in every state (30_encoding.md R87, the six byte rows). -/
def selectByte (mp : MatchPos) (pcnt : FbAddr) (b : Byte) : Instr :=
  if mp = 6 then
    if pcnt = 195 then .payLast b else .payPut b
  else if continuesSig mp b then advanceAt mp
  else if mp = 0 then .synSkip b
  else .synDrop b

/-- The operation an input event selects (30_encoding.md R87; 45_pipeline.md R196). -/
def selectEvent (mp : MatchPos) (pcnt : FbAddr) : InEvent → Instr
  | .byte b => selectByte mp pcnt b
  | .eos => if mp = 0 then .errEos else .errShort
  | .ioErr => .errIo
  | .sinkAck => .snkAck
  | .sinkFail => .snkFail
  | .reset => .reset

/-! ### The selection of the stages of one frame -/

/-- The three rows of 30_encoding.md R88: a frame inside the warm-up, the frame that ends it, a frame after it. -/
inductive FrameKind where
  /-- `phase = WARMING_UP` and `fc + 1 < WARMUP_FRAMES`. -/
  | warmup
  /-- `phase = WARMING_UP` and `fc + 1 = WARMUP_FRAMES`. -/
  | arming
  /-- `phase = ARMED`. -/
  | live
  deriving DecidableEq, Repr

/-- One stage for every index, in ascending order (00_scope.md R13; 45_pipeline.md R200). -/
def eachIdx (f : SampleIdx → Instr) : List Instr := (List.finRange 98).map f

/-- The selector's four stages (30_encoding.md R88). -/
def selectorOps : List Instr := eachIdx .selQual ++ [.selArgmin, .selFire, .cmdEmit]

/-- The operations a completed frame runs, in order (30_encoding.md R88). -/
def frameOps : FrameKind → List Instr
  | .warmup => eachIdx .decSample ++ eachIdx .prjProject ++ eachIdx .calMin
  | .arming => eachIdx .decSample ++ eachIdx .prjProject ++ eachIdx .calMin ++ eachIdx .calFin ++ selectorOps
  | .live => eachIdx .decSample ++ eachIdx .prjProject ++ selectorOps

/-! ### Decode and encode -/

/-- What selects one operation: an event at given sequencing registers (R87), or a place in the sequence a completed
frame runs, where place 0 is FRM.DISPATCH itself (R88; 45_pipeline.md R200). -/
inductive Selection where
  | event (mp : MatchPos) (pcnt : FbAddr) (e : InEvent)
  | stage (kind : FrameKind) (place : Nat)
  deriving DecidableEq, Repr

/-- Why a selection or a command byte has no reading. -/
inductive DecodeError where
  /-- The frame's sequence of operations has no such place. -/
  | noSuchStage (place : Nat)
  /-- The index field of a command byte is 98..127, which is reserved (30_encoding.md R91). -/
  | reservedIndex (c : Byte)
  deriving DecidableEq, Repr

/-- The decoder: total, and every rejection is by name. -/
def decode : Selection → Except DecodeError Instr
  | .event mp pcnt e => .ok (selectEvent mp pcnt e)
  | .stage kind place =>
    match (.frmDispatch :: frameOps kind)[place]? with
    | some i => .ok i
    | none => .error (.noSuchStage place)

/-- A position of the match, 1..5, at which the byte breaks it: 1, or 2 for the byte `80` (40_synchronizer.md R114). -/
def dropPosition (b : Byte) : MatchPos := if b = 0x80 then 2 else 1

/-- The encoder: a selection that selects the operation, written from the tables of R81, R87 and R88. A stage is
placed in the sequence of the frame that ends the warm-up, which runs them all (assumption log 14). -/
def encode : Instr → Selection
  | .synSkip b => .event 0 0 (.byte b)
  | .synAdv0 => .event 0 0 (.byte 0x02)
  | .synAdv1 => .event 1 0 (.byte 0x80)
  | .synAdv2 => .event 2 0 (.byte 0xCE)
  | .synAdv3 => .event 3 0 (.byte 0x00)
  | .synAdv4 => .event 4 0 (.byte 0xB0)
  | .synLock => .event 5 0 (.byte 0x65)
  | .synDrop b => .event (dropPosition b) 0 (.byte b)
  | .payPut b => .event 6 0 (.byte b)
  | .payLast b => .event 6 195 (.byte b)
  | .frmDispatch => .stage .arming 0
  | .decSample i => .stage .arming (1 + i.val)
  | .prjProject i => .stage .arming (99 + i.val)
  | .calMin i => .stage .arming (197 + i.val)
  | .calFin i => .stage .arming (295 + i.val)
  | .selQual i => .stage .arming (393 + i.val)
  | .selArgmin => .stage .arming 491
  | .selFire => .stage .arming 492
  | .cmdEmit => .stage .arming 493
  | .snkAck => .event 0 0 .sinkAck
  | .errEos => .event 0 0 .eos
  | .errShort => .event 1 0 .eos
  | .errIo => .event 0 0 .ioErr
  | .snkFail => .event 0 0 .sinkFail
  | .reset => .event 0 0 .reset

/-! ### The sample pair `S16`, the command byte `C8`, the frame `F1616` -/

/-- The 16-bit pair `w = (hi << 8) | lo`; `lo` arrives first (20_memory.md R51; 30_encoding.md R82). -/
def samplePair (lo hi : Byte) : BitVec 16 := (hi.setWidth 16 <<< 8) ||| lo.setWidth 16

/-- `SAMP = w & 0x1FFF`, 13 bits (30_encoding.md R85). -/
def sampleOfPair (w : BitVec 16) : Sample := (w &&& 0x1FFF).setWidth 13

/-- The sample of two payload bytes (30_encoding.md R85). -/
def decodeSample (lo hi : Byte) : Sample := sampleOfPair (samplePair lo hi)

/-- The low and the high byte of a sample, with the three ignored bits set to `ign`
(the macro `SMPX` of 30_encoding.md R95). -/
def encodeSample (v : Sample) (ign : BitVec 3) : Byte × Byte :=
  (v.setWidth 8, ((v >>> 8).setWidth 8) ||| (ign.setWidth 8 <<< 5))

/-- `cmd = idx | (fire << 7)` (30_encoding.md R86). -/
def encodeCommand (idx : SampleIdx) (fire : Bool) : Byte :=
  BitVec.ofNat 8 idx.val ||| ((BitVec.ofBool fire).setWidth 8 <<< 7)

/-- The fire flag and the index of a command byte; an index field of 98..127 is reserved (30_encoding.md R83, R91). -/
def decodeCommand (c : Byte) : Except DecodeError (Bool × SampleIdx) :=
  let t := (c &&& 0x7F).toNat
  if h : t < 98 then .ok (c.getLsbD 7, ⟨t, h⟩) else .error (.reservedIndex c)

/-- The payload bytes of a frame: the pair of sample `i` at offsets `2i` and `2i + 1` (20_memory.md R53). -/
def payloadBytes (v : SampleIdx → Sample) (ign : SampleIdx → BitVec 3) : List Byte :=
  (List.finRange 98).flatMap fun i => [(encodeSample (v i) (ign i)).1, (encodeSample (v i) (ign i)).2]

/-- The 202 bytes of a frame: the signature, then the payload (30_encoding.md R84). -/
def frameBytes (v : SampleIdx → Sample) (ign : SampleIdx → BitVec 3) : List Byte :=
  sigTable ++ payloadBytes v ign

/-! ### The rows of the opcode table as words -/

/-- The match position at which the table's `B8` rows read a byte: the position whose signature byte it is, else 0
(30_encoding.md R96; assumption log 9). -/
def tablePosition (b : Byte) : MatchPos :=
  if b = 0x80 then 1 else if b = 0xCE then 2 else if b = 0x00 then 3
  else if b = 0xB0 then 4 else if b = 0x65 then 5 else 0

/-- The operation the decoder reads from a table row's word. A byte is read at `tablePosition`; a 16-bit word is the
sample pair of the frame's last index; a row of format `NONE` has no bits and no reading here (assumption log 9). -/
def decodeTableWord (nbits w : Nat) : Option Instr :=
  if nbits = 8 then some (selectByte (tablePosition (BitVec.ofNat 8 w)) 0 (BitVec.ofNat 8 w))
  else if nbits = 16 then some (.decSample 97)
  else none

end Sys2Proof
end

