-- ==== Sys2Proof/Config.lean ====
section
/-! DEFINITION. What one instance of the block fixes: the three configuration parameters (spec/00_scope.md R7, R8;
spec/10_state.md R31). -/

namespace Sys2Proof

/-- The configuration record (00_scope.md R7). The legal ranges are part of the record, so a value outside them is
not a configuration at all: "not an instance of this block" (93_implementation_defined.md U10). -/
structure Config where
  /-- `WARMUP_FRAMES`: how many frames build the baseline. -/
  warmupFrames : Nat
  /-- `MARGIN`: the safety margin CAL.FIN subtracts. -/
  margin : Nat
  /-- `MAX_THRESHOLD`: the clamp of CAL.FIN and the middle term of SEL.QUAL. -/
  maxThreshold : Nat
  warmup_pos : 1 ≤ warmupFrames
  warmup_le : warmupFrames ≤ 255
  margin_le : margin ≤ 65534
  threshold_le : maxThreshold ≤ 65534
  deriving DecidableEq, Repr

/-- The value of `MAX_THRESHOLD`, which the spec leaves OPEN (92_eei_decisions.md D4; 91_not_in_source.md N1):
a legal value, nothing more is known of it (assumption log 2). -/
opaque Config.openThreshold : Fin 65535

/-- The instance the model's launch state carries: JP's two defaults and the open threshold (00_scope.md R7). -/
def Config.launch : Config where
  warmupFrames := 30
  margin := 10
  maxThreshold := Config.openThreshold.val
  warmup_pos := by decide
  warmup_le := by decide
  margin_le := by decide
  threshold_le := Nat.le_of_lt_succ Config.openThreshold.isLt

/-- `TCFG`, the configuration of the spec's test vectors (00_scope.md R8). -/
def Config.test : Config where
  warmupFrames := 30
  margin := 10
  maxThreshold := 2000
  warmup_pos := by decide
  warmup_le := by decide
  margin_le := by decide
  threshold_le := by decide

end Sys2Proof
end

