-- ==== Sys2Proof/Machine/State.lean ====
section
/-! DEFINITION. The state of JPCORE (spec/10_state.md R20), the reasons a step can stop, and the state after reset
(spec/10_state.md R36). Everything here is plain data. -/

namespace Sys2Proof.Machine

/-- The session phase (10_state.md R28): one bit, 0 = WARMING_UP, 1 = ARMED. -/
inductive Phase where
  | warmingUp
  | armed
  deriving DecidableEq, Repr

/-- The kinds of fatal error (00_scope.md R12; 60_exceptions.md R221). -/
inductive ErrorKind where
  | streamClosed
  | ioFailure
  deriving DecidableEq, Repr

/-- A memory: byte cells in the canonical form of `Memory.wf` (Machine/Operands.lean). -/
abbrev Memory := List Host.Cell

/-- The transients of frame processing (10_state.md R32). They live inside one PAY.LAST step only; between events they
hold `Scratch.clear` (assumption log 3). -/
structure Scratch where
  /-- `SAMP[0..97]`, 13 bits each. -/
  samp : Vector Sample 98
  /-- `PROJ[0..97]`, held in the 16-bit distance type. -/
  proj : Vector Dist 98
  /-- `QUAL[0..97]`, 1 bit each. -/
  qual : Vector Bool 98
  /-- `best`, the arg-min's running minimum, 16 bits. -/
  best : Dist
  /-- `idx`, the arg-min's index, 0..97. -/
  idx : SampleIdx
  /-- `fire`, 1 bit. -/
  fire : Bool
  deriving DecidableEq, Repr

/-- The transients when no frame is being processed (assumption log 3). -/
def Scratch.clear : Scratch where
  samp := Vector.replicate 98 0
  proj := Vector.replicate 98 0
  qual := Vector.replicate 98 false
  best := 0
  idx := 0
  fire := false

/-- The tuple of 10_state.md R20, and three fields of the model's own: `cfg`, `scratch`, `offers`. -/
structure State where
  /-- The configuration: no state of the block, constant for its life (10_state.md R31; assumption log 1). -/
  cfg : Config
  /-- `mp`, match progress, 0..6 (R22). -/
  mp : MatchPos
  /-- `pcnt`, payload bytes already stored, 0..195 (R23). -/
  pcnt : FbAddr
  /-- `FB[0..195]`, the frame buffer (R25). -/
  fb : Memory
  /-- `fc`, frames folded into the baseline, 8 bits (R27). -/
  fc : BitVec 8
  /-- `phase` (R28). -/
  phase : Phase
  /-- `REF[0..97]`, the baseline register file, 16 bits each (R26). -/
  ref : Vector Dist 98
  /-- `cv`: a command is waiting for the sink (R29). -/
  cv : Bool
  /-- `cmd`, the command byte last produced (R29). -/
  cmd : Byte
  /-- `halted`: a fatal error was taken (R30). -/
  halted : Bool
  /-- `err`, the error kind latched at the halt, 2 bits (R30; 60_exceptions.md R221). -/
  err : BitVec 2
  /-- `ecause`, the detail of the error, 2 bits (R30; 60_exceptions.md R221). -/
  ecause : BitVec 2
  /-- The transients of frame processing (R32). -/
  scratch : Scratch
  /-- What the environment offers, oldest first (00_scope.md R5 "program"; 10_state.md R33; assumption log 4). -/
  offers : List InEvent
  deriving DecidableEq, Repr

/-- The state after reset (10_state.md R36), with the configuration of the launched instance, an empty frame buffer
list (assumption log 5), no transient (assumption log 3) and nothing offered (assumption log 10). -/
def State.reset : State where
  cfg := Config.launch
  mp := 0
  pcnt := 0
  fb := []
  fc := 0
  phase := .warmingUp
  ref := Vector.replicate 98 infDist
  cv := false
  cmd := 0x00
  halted := false
  err := 0
  ecause := 0
  scratch := Scratch.clear
  offers := []

/-- The faults of JPCORE: none. Its fatal errors are next states (60_exceptions.md R230), no computation inside it can
fail (60_exceptions.md R220), and it has no alignment fault and no bounds fault (20_memory.md R56). Nobody raises one;
safe. -/
inductive Fault where
  deriving DecidableEq, Repr

/-- The refusals. -/
inductive Refusal where
  /-- Raised by nobody in this model: the operation has no meaning yet. Safe. -/
  | notModelled (mnemonic : String)
  /-- Raised by a meaning that is run in a state in which the spec does not select its operation, so that the spec gives
  it no effect there (30_encoding.md R87, R88; the preconditions in the operations' rules). `step` runs selected
  operations only and never meets it. Safe (assumption log 6). -/
  | notSelected
  deriving DecidableEq, Repr

/-- The read-only status outputs (10_state.md R35; 45_pipeline.md R209), each a copy of the state item of its name. -/
structure Status where
  phase : BitVec 1
  fc : BitVec 8
  mp : BitVec 3
  halted : BitVec 1
  err : BitVec 2
  ecause : BitVec 2
  cv : BitVec 1
  cmd : Byte
  deriving DecidableEq, Repr

end Sys2Proof.Machine
end

