-- ==== Sys2Proof/Machine/Operands.lean ====
section
/-! DEFINITION. The storage access forms of JPCORE (spec/20_memory.md R50, R65; spec/00_scope.md R10, R11) and the
constant tables (spec/42_projector.md R142; spec/20_memory.md R54). Every address is bounded by its type, as R56 says
it is by the rules. -/

namespace Sys2Proof.Machine

/-! ### The frame buffer, the one byte-addressed memory -/

/-- What an entry of `FB` that nothing has written reads as: the spec leaves it unspecified and calls it unobservable
(10_state.md R25, R36; assumption log 5). -/
def fbUnwritten : Byte := 0

/-- The byte under a key of a cell list. -/
def Memory.lookup : Memory → Nat → Byte
  | [], _ => fbUnwritten
  | (k, v) :: rest, a => if k = a then v else Memory.lookup rest a

/-- The cell list with one byte replaced; an entry that reads as `fbUnwritten` is not listed. -/
def Memory.store : Memory → Nat → Byte → Memory
  | [], a, v => if v = fbUnwritten then [] else [(a, v)]
  | (k, w) :: rest, a, v =>
    if k < a then (k, w) :: Memory.store rest a v
    else
      let tail := if k = a then rest else (k, w) :: rest
      if v = fbUnwritten then tail else (a, v) :: tail

/-- Every key of the list is above `lo` and the keys rise strictly. -/
def Memory.risesFrom : Memory → Nat → Bool
  | [], _ => true
  | (k, _) :: rest, lo => decide (lo ≤ k) && Memory.risesFrom rest (k + 1)

/-- The canonical form: keys rise strictly, lie inside `FB` (0..195), and no entry is what an unlisted one reads as. -/
def Memory.wf (m : Memory) : Bool :=
  Memory.risesFrom m 0 && m.all fun c => decide (c.1 < 196) && c.2 != fbUnwritten

/-- `MemRead(FB, a, 1) = FB[a]` (00_scope.md R11). -/
def readByte (s : State) (a : FbAddr) : Byte := Memory.lookup s.fb a.val

/-- `MemWrite(FB, a, 1, v)`: the one access that writes memory (00_scope.md R11; 20_memory.md R65). -/
def writeByte (a : FbAddr) (v : Byte) (s : State) : State := { s with fb := Memory.store s.fb a.val v }

/-- The address `2i` of the low byte of sample `i` (20_memory.md R53). -/
def lowAddr (i : SampleIdx) : FbAddr := ⟨2 * i.val, by omega⟩

/-- The address `2i + 1` of the high byte of sample `i` (20_memory.md R53). -/
def highAddr (i : SampleIdx) : FbAddr := ⟨2 * i.val + 1, by omega⟩

/-- `MemRead(FB, 2i, 2) = (FB[2i+1] << 8) | FB[2i]`, little-endian (00_scope.md R11; 20_memory.md R52). -/
def readPair (s : State) (i : SampleIdx) : BitVec 16 :=
  samplePair (readByte s (lowAddr i)) (readByte s (highAddr i))

/-! ### The baseline register file and the transient vectors, one whole entry at a time -/

/-- `REF[i] <- d` (00_scope.md R10). -/
def writeRef (i : SampleIdx) (d : Dist) (s : State) : State := { s with ref := s.ref.set i.val d }

/-- `SAMP[i] <- v`. -/
def writeSamp (i : SampleIdx) (v : Sample) (s : State) : State :=
  { s with scratch := { s.scratch with samp := s.scratch.samp.set i.val v } }

/-- `PROJ[i] <- d`. -/
def writeProj (i : SampleIdx) (d : Dist) (s : State) : State :=
  { s with scratch := { s.scratch with proj := s.scratch.proj.set i.val d } }

/-- `QUAL[i] <- q`. -/
def writeQual (i : SampleIdx) (q : Bool) (s : State) : State :=
  { s with scratch := { s.scratch with qual := s.scratch.qual.set i.val q } }

/-! ### The constant tables -/

/-- The values of the sine ROM (42_projector.md R142), in pieces. -/
def sineTable : List Nat :=
  [345093970, 352219009, 359236759, 366145082, 372941873, 379625062, 386192615, 392642529, 398972840, 405181621] ++
  [411266979, 417227061, 423060052, 428764175, 434337692, 439778905, 445086158, 450257833, 455292355, 460188190] ++
  [464943848, 469557880, 474028879, 478355485, 482536379, 486570288, 490455983, 494192280, 497778042, 501212175] ++
  [504493634, 507621420, 510594579, 513412206, 516073443, 518577479, 520923551, 523110945, 525138994, 527007081] ++
  [528714637, 530261140, 531646121, 532869158, 533929877, 534827956, 535563121, 536135149, 536543865, 536789144] ++
  [536870912, 536789144, 536543865, 536135149, 535563121, 534827956, 533929877, 532869158, 531646121, 530261140] ++
  [528714637, 527007081, 525138994, 523110945, 520923551, 518577479, 516073443, 513412206, 510594579, 507621420] ++
  [504493634, 501212175, 497778042, 494192280, 490455983, 486570288, 482536379, 478355485, 474028879, 469557880] ++
  [464943848, 460188190, 455292355, 450257833, 445086158, 439778905, 434337692, 428764175, 423060052, 417227061] ++
  [411266979, 405181621, 398972840, 392642529, 386192615, 379625062, 372941873, 366145082]

/-- `SINQ[i]`, 30 bits (42_projector.md R142). -/
def sinq (i : SampleIdx) : SinWord := BitVec.ofNat 30 (sineTable.getD i.val 0)

/-- `angle(i) = i + 40` degrees (20_memory.md R54). -/
def angle (i : SampleIdx) : Nat := i.val + 40

/-- `PROJ(raw, i) = (raw × SINQ[i] + 2^28) >> 29`, exact natural-number arithmetic (42_projector.md R141). -/
def project (raw : Sample) (i : SampleIdx) : Dist :=
  BitVec.ofNat 16 ((raw.toNat * (sinq i).toNat + 2 ^ 28) >>> 29)

/-- `min` of two distances, unsigned (43_calibrator.md R156). -/
def minDist (a b : Dist) : Dist := if a < b then a else b

/-- The finalisation of one baseline entry: clamp, then margin (43_calibrator.md R157). -/
def finalise (cfg : Config) (r : Dist) : Dist :=
  let c := if cfg.maxThreshold < r.toNat then BitVec.ofNat 16 cfg.maxThreshold else r
  if cfg.margin < c.toNat then BitVec.ofNat 16 (c.toNat - cfg.margin) else c

end Sys2Proof.Machine
end

