-- ==== Sys2Proof/Machine/Flags.lean ====
section
/-! DEFINITION. The one-bit conditions of JPCORE: event admission (spec/45_pipeline.md R197), the qualifying test and the
fire flag (spec/44_selector.md R176, R179), the kind of a frame (spec/30_encoding.md R88), and the status outputs
(spec/10_state.md R34, R35). It has no condition codes (R34). -/

namespace Sys2Proof.Machine

/-- The byte source is awaited: `halted = 0` and `cv = 0` (45_pipeline.md R197, R198). -/
def awaitsSource (s : State) : Bool := !s.halted && !s.cv

/-- The sink is awaited: `halted = 0` and `cv = 1` (45_pipeline.md R197, R198). -/
def awaitsSink (s : State) : Bool := !s.halted && s.cv

/-- Whether the block consumes the event in this state (45_pipeline.md R197). -/
def admits (s : State) : InEvent → Bool
  | .reset => true
  | .byte _ => awaitsSource s
  | .eos => awaitsSource s
  | .ioErr => awaitsSource s
  | .sinkAck => awaitsSink s
  | .sinkFail => awaitsSink s

/-- The three-part test: below the baseline, below the threshold, positive; each strict and unsigned
(44_selector.md R176). -/
def qualifies (cfg : Config) (proj ref : Dist) : Bool :=
  decide (proj < ref) && decide (proj.toNat < cfg.maxThreshold) && decide (0 < proj)

/-- `VAL[i]`: the projected distance of a candidate, else `INF` (44_selector.md R177). -/
def candidate (s : State) (i : SampleIdx) : Dist :=
  if s.scratch.qual[i.val] then s.scratch.proj[i.val] else infDist

/-- The counter has reached `WARMUP_FRAMES` (45_pipeline.md R200). -/
def warmupDone (s : State) : Bool := s.fc.toNat == s.cfg.warmupFrames

/-- The row of 30_encoding.md R88 that a completed frame falls under. -/
def frameKind (s : State) : FrameKind :=
  if s.phase = .armed then .live
  else if (s.fc + 1).toNat = s.cfg.warmupFrames then .arming
  else .warmup

/-- The phase as the bit the status output shows (10_state.md R35). -/
def Phase.bit : Phase → BitVec 1
  | .warmingUp => 0
  | .armed => 1

/-- The status outputs (10_state.md R35). -/
def status (s : State) : Status where
  phase := s.phase.bit
  fc := s.fc
  mp := BitVec.ofNat 3 s.mp.val
  halted := BitVec.ofBool s.halted
  err := s.err
  ecause := s.ecause
  cv := BitVec.ofBool s.cv
  cmd := s.cmd

end Sys2Proof.Machine
end

