-- ==== Sys2Proof/Machine/Ops.lean ====
section
/-! DEFINITION. The operations the meanings share: the guard of an operation by its selection condition, the loop over
the sample indices, taking an error and leaving the halt, presenting a command, and the environment's offers. -/

namespace Sys2Proof.Machine

/-- An operation runs where its rule's precondition holds, and is refused by name elsewhere (assumption log 6). -/
def whenSelected (cond : Bool) (t : State) : Host.Outcome State Fault Refusal :=
  if cond then .next t else .refused .notSelected

/-- `for i in 0..97`, ascending (00_scope.md R13). -/
def forIdx (f : SampleIdx → State → State) (s : State) : State :=
  (List.finRange 98).foldl (fun s i => f i s) s

/-! ### Errors -/

/-- The code of an error kind (60_exceptions.md R221). -/
def ErrorKind.code : ErrorKind → BitVec 2
  | .streamClosed => 1
  | .ioFailure => 2

/-- The cause READ_ERROR (60_exceptions.md R221). -/
def causeRead : BitVec 2 := 1

/-- The cause SHORT_READ (60_exceptions.md R221). -/
def causeShort : BitVec 2 := 2

/-- The cause WRITE_ERROR (60_exceptions.md R221). -/
def causeWrite : BitVec 2 := 3

/-- `raise E(c)`: taking an error is the halt; it writes `halted`, `err`, `ecause` and nothing else
(60_exceptions.md R230). -/
def raise (e : ErrorKind) (cause : BitVec 2) (s : State) : State :=
  { s with halted := true, err := e.code, ecause := cause }

/-- The one way out of the halt, and the start of a session: RESET (60_exceptions.md R231; 70_reset_and_hazards.md R260).
`FB` is not written; the configuration is no state (70_reset_and_hazards.md R261); what the environment offers stays
its own. -/
def resetState (s : State) : State :=
  { s with
    mp := 0
    pcnt := 0
    fc := 0
    phase := .warmingUp
    ref := Vector.replicate 98 infDist
    cv := false
    cmd := 0x00
    halted := false
    err := 0
    ecause := 0
    scratch := Scratch.clear }

/-! ### The command hand-off -/

/-- `emit(c)`: `cmd <- c; cv <- 1` (00_scope.md R13; 45_pipeline.md R203). -/
def emit (c : Byte) (s : State) : State := { s with cmd := c, cv := true }

/-! ### The environment's offers -/

/-- The oldest offer that is admitted, and the offers that remain: one that is not admitted is not consumed and stays
with its source (45_pipeline.md R197; assumption log 4); `Reset` does not overtake (assumption log 11), and a stray sink
answer stays too (assumption log 12). -/
def takeAdmitted (p : InEvent → Bool) : List InEvent → Option (InEvent × List InEvent)
  | [] => none
  | e :: rest =>
    if p e then some (e, rest)
    else
      match takeAdmitted p rest with
      | none => none
      | some (x, left) => some (x, e :: left)

/-- The event the block consumes next, if its environment offers one it admits. -/
def nextOffer (s : State) : Option (InEvent × List InEvent) := takeAdmitted (admits s) s.offers

end Sys2Proof.Machine
end

