-- ==== Sys2Proof/Machine/Errors.lean ====
section
/-! DEFINITION. The four error operations and RESET: ERR.EOS, ERR.SHORT, ERR.IO, SNK.FAIL
(spec/60_exceptions.md R222 to R225), RESET (spec/70_reset_and_hazards.md R260). -/

namespace Sys2Proof.Machine

/-- ERR.EOS: the stream ended with no match in progress (60_exceptions.md R222). -/
def execErrEos (s : State) : Host.Outcome State Fault Refusal :=
  whenSelected (awaitsSource s && s.mp == 0) (raise .streamClosed 0 s)

/-- ERR.SHORT: the stream ended inside a header match or a payload (60_exceptions.md R223). -/
def execErrShort (s : State) : Host.Outcome State Fault Refusal :=
  whenSelected (awaitsSource s && s.mp != 0) (raise .ioFailure causeShort s)

/-- ERR.IO: a read failed (60_exceptions.md R224). -/
def execErrIo (s : State) : Host.Outcome State Fault Refusal :=
  whenSelected (awaitsSource s) (raise .ioFailure causeRead s)

/-- SNK.FAIL: the command is given up, then the halt; `cmd` keeps its value (60_exceptions.md R225). -/
def execSnkFail (s : State) : Host.Outcome State Fault Refusal :=
  whenSelected (awaitsSink s) (raise .ioFailure causeWrite { s with cv := false })

/-- RESET: admitted in every state (70_reset_and_hazards.md R260). -/
def execReset (s : State) : Host.Outcome State Fault Refusal := .next (resetState s)

end Sys2Proof.Machine
end

