-- ==== Sys2Proof/Machine/Calibrator.lean ====
section
/-! DEFINITION. The BackgroundCalibrator: CAL.MIN and CAL.FIN (spec/43_calibrator.md). -/

namespace Sys2Proof.Machine

/-- `REF[i] <- min(REF[i], PROJ[i])` (43_calibrator.md R156). -/
def calMin (i : SampleIdx) (s : State) : State := writeRef i (minDist s.ref[i.val] s.scratch.proj[i.val]) s

/-- CAL.MIN(i): a stage of a frame completed while `phase = WARMING_UP` (43_calibrator.md R156). -/
def execCalMin (i : SampleIdx) (s : State) : Host.Outcome State Fault Refusal :=
  whenSelected (awaitsSource s && s.phase == .warmingUp) (calMin i s)

/-- `REF[i] <- fin(REF[i])`; the closing action `phase <- ARMED`, done once after all 98, is part of the last index of
the ascending loop (43_calibrator.md R157; assumption log 7). -/
def calFin (i : SampleIdx) (s : State) : State :=
  let t := writeRef i (finalise s.cfg s.ref[i.val]) s
  if i = 97 then { t with phase := .armed } else t

/-- CAL.FIN(i): a stage of the frame that ends the warm-up, `fc` already incremented (43_calibrator.md R157). -/
def execCalFin (i : SampleIdx) (s : State) : Host.Outcome State Fault Refusal :=
  whenSelected (awaitsSource s && s.phase == .warmingUp && warmupDone s) (calFin i s)

end Sys2Proof.Machine
end

