-- ==== Sys2Proof/Machine/Decoder.lean ====
section
/-! DEFINITION. The FrameDecoder: DEC.SAMPLE (spec/41_decoder.md). -/

namespace Sys2Proof.Machine

/-- `SAMP[i] <- MemRead(FB, 2i, 2) & 0x1FFF` (41_decoder.md R131). -/
def decSample (i : SampleIdx) (s : State) : State := writeSamp i (sampleOfPair (readPair s i)) s

/-- DEC.SAMPLE(i): a stage of every frame (30_encoding.md R88). -/
def execDecSample (i : SampleIdx) (s : State) : Host.Outcome State Fault Refusal :=
  whenSelected (awaitsSource s) (decSample i s)

end Sys2Proof.Machine
end

