-- ==== Sys2Proof/Machine/Projector.lean ====
section
/-! DEFINITION. The DistanceProjector: PRJ.PROJECT (spec/42_projector.md). -/

namespace Sys2Proof.Machine

/-- `PROJ[i] <- (SAMP[i] × SINQ[i] + 2^28) >> 29` (42_projector.md R141). -/
def prjProject (i : SampleIdx) (s : State) : State := writeProj i (project s.scratch.samp[i.val] i) s

/-- PRJ.PROJECT(i): a stage of every frame (30_encoding.md R88). -/
def execPrjProject (i : SampleIdx) (s : State) : Host.Outcome State Fault Refusal :=
  whenSelected (awaitsSource s) (prjProject i s)

end Sys2Proof.Machine
end

