-- ==== Sys2Proof/Machine/Selector.lean ====
section
/-! DEFINITION. The TargetSelector and the command byte: SEL.QUAL, SEL.ARGMIN, SEL.FIRE, CMD.EMIT
(spec/44_selector.md). -/

namespace Sys2Proof.Machine

/-- The selector's stages run when `phase = ARMED` at that point of the frame (30_encoding.md R88; 45_pipeline.md
R200). -/
def selecting (s : State) : Bool := awaitsSource s && s.phase == .armed

/-- `QUAL[i] <-` the three-part test (44_selector.md R176). -/
def selQual (i : SampleIdx) (s : State) : State :=
  writeQual i (qualifies s.cfg s.scratch.proj[i.val] s.ref[i.val]) s

/-- SEL.QUAL(i). -/
def execSelQual (i : SampleIdx) (s : State) : Host.Outcome State Fault Refusal :=
  whenSelected (selecting s) (selQual i s)

/-- One turn of the scan: `if VAL[i] < best then best <- VAL[i]; idx <- i`, the comparison strict
(44_selector.md R178). -/
def argminTurn (i : SampleIdx) (s : State) : State :=
  if candidate s i < s.scratch.best then
    { s with scratch := { s.scratch with best := candidate s i, idx := i } }
  else s

/-- `best <- INF; idx <- 0`, then the ascending scan (44_selector.md R178). -/
def selArgmin (s : State) : State :=
  forIdx argminTurn { s with scratch := { s.scratch with best := infDist, idx := 0 } }

/-- SEL.ARGMIN. -/
def execSelArgmin (s : State) : Host.Outcome State Fault Refusal :=
  whenSelected (selecting s) (selArgmin s)

/-- `fire <- QUAL[idx]` (44_selector.md R179). -/
def selFire (s : State) : State :=
  { s with scratch := { s.scratch with fire := s.scratch.qual[s.scratch.idx.val] } }

/-- SEL.FIRE. -/
def execSelFire (s : State) : Host.Outcome State Fault Refusal :=
  whenSelected (selecting s) (selFire s)

/-- `emit(idx | (fire << 7))` (44_selector.md R180). -/
def cmdEmit (s : State) : State := emit (encodeCommand s.scratch.idx s.scratch.fire) s

/-- CMD.EMIT. -/
def execCmdEmit (s : State) : Host.Outcome State Fault Refusal :=
  whenSelected (selecting s) (cmdEmit s)

end Sys2Proof.Machine
end

