-- ==== Sys2Proof/Machine/Pipeline.lean ====
section
/-! DEFINITION. Frame dispatch and the sink hand-off: FRM.DISPATCH, SNK.ACK (spec/45_pipeline.md R200, R204). -/

namespace Sys2Proof.Machine

/-- The frame decoded, then projected (45_pipeline.md R200, lines 1 and 2). -/
def frameProject (s : State) : State := forIdx prjProject (forIdx decSample s)

/-- `fc <- fc + 1` (45_pipeline.md R200). -/
def countFrame (s : State) : State := { s with fc := s.fc + 1 }

/-- The first `if` of 45_pipeline.md R200: fold the frame into the baseline, count it, and on the last warm-up frame
finalise. -/
def frameCalibrate (s : State) : State :=
  if s.phase = .warmingUp then
    let t := countFrame (forIdx calMin s)
    if warmupDone t then forIdx calFin t else t
  else s

/-- The second `if` of 45_pipeline.md R200, tested after the first block has run: select and emit. -/
def frameSelect (s : State) : State :=
  if s.phase = .armed then cmdEmit (selFire (selArgmin (forIdx selQual s))) else s

/-- The transients end with the frame (10_state.md R32; assumption log 3). -/
def dropTransients (s : State) : State := { s with scratch := Scratch.clear }

/-- The tail of the PAY.LAST step: process the raw frame in `FB` (45_pipeline.md R200). -/
def frmDispatch (s : State) : State := dropTransients (frameSelect (frameCalibrate (frameProject s)))

/-- FRM.DISPATCH. -/
def execFrmDispatch (s : State) : Host.Outcome State Fault Refusal :=
  whenSelected (awaitsSource s) (frmDispatch s)

/-- SNK.ACK: the sink took the command; `cmd` keeps its value (45_pipeline.md R204). -/
def execSnkAck (s : State) : Host.Outcome State Fault Refusal :=
  whenSelected (awaitsSink s) { s with cv := false }

end Sys2Proof.Machine
end

