-- ==== Sys2Proof/Machine/Synchronizer.lean ====
section
/-! DEFINITION. The FrameSynchronizer: SYN.SKIP, SYN.ADV0 to SYN.ADV4, SYN.LOCK, SYN.DROP, PAY.PUT, PAY.LAST
(spec/40_synchronizer.md). -/

namespace Sys2Proof.Machine

/-- The block takes a byte at match progress `k`. -/
def huntingAt (k : MatchPos) (s : State) : Bool := awaitsSource s && s.mp == k

/-- SYN.SKIP: `mp` stays 0 and the byte is discarded (40_synchronizer.md R111). -/
def execSynSkip (b : Byte) (s : State) : Host.Outcome State Fault Refusal :=
  whenSelected (huntingAt 0 s && !continuesSig 0 b) { s with mp := 0 }

/-- SYN.ADV at `mp = 0` (40_synchronizer.md R112). -/
def execSynAdv0 (s : State) : Host.Outcome State Fault Refusal := whenSelected (huntingAt 0 s) { s with mp := 1 }

/-- SYN.ADV at `mp = 1` (40_synchronizer.md R112). -/
def execSynAdv1 (s : State) : Host.Outcome State Fault Refusal := whenSelected (huntingAt 1 s) { s with mp := 2 }

/-- SYN.ADV at `mp = 2` (40_synchronizer.md R112). -/
def execSynAdv2 (s : State) : Host.Outcome State Fault Refusal := whenSelected (huntingAt 2 s) { s with mp := 3 }

/-- SYN.ADV at `mp = 3` (40_synchronizer.md R112). -/
def execSynAdv3 (s : State) : Host.Outcome State Fault Refusal := whenSelected (huntingAt 3 s) { s with mp := 4 }

/-- SYN.ADV at `mp = 4` (40_synchronizer.md R112). -/
def execSynAdv4 (s : State) : Host.Outcome State Fault Refusal := whenSelected (huntingAt 4 s) { s with mp := 5 }

/-- SYN.LOCK: from the next byte on the block stores payload (40_synchronizer.md R113). -/
def execSynLock (s : State) : Host.Outcome State Fault Refusal :=
  whenSelected (huntingAt 5 s) { s with mp := 6, pcnt := 0 }

/-- SYN.DROP: the byte that breaks the match is lost, whatever it is; it is not compared with `SIG[0]`
(40_synchronizer.md R114). -/
def execSynDrop (b : Byte) (s : State) : Host.Outcome State Fault Refusal :=
  whenSelected (awaitsSource s && s.mp != 0 && s.mp != 6 && !continuesSig s.mp b) { s with mp := 0 }

/-- The block takes a payload byte. -/
def locked (s : State) : Bool := awaitsSource s && s.mp == 6

/-- `pcnt + 1`, for `pcnt < 195` (10_state.md R23). -/
def nextAddr (a : FbAddr) : FbAddr := a + 1

/-- PAY.PUT: `FB[pcnt] <- b; pcnt <- pcnt + 1` (40_synchronizer.md R115). -/
def execPayPut (b : Byte) (s : State) : Host.Outcome State Fault Refusal :=
  whenSelected (locked s && s.pcnt != 195) { writeByte s.pcnt b s with pcnt := nextAddr s.pcnt }

/-- The raw frame complete and the synchronizer back at its start (40_synchronizer.md R116). -/
def completeFrame (b : Byte) (s : State) : State := { writeByte 195 b s with mp := 0, pcnt := 0 }

/-- PAY.LAST: `FB[195] <- b; mp <- 0; pcnt <- 0; FRM.DISPATCH`, one step (40_synchronizer.md R116). -/
def execPayLast (b : Byte) (s : State) : Host.Outcome State Fault Refusal :=
  whenSelected (locked s && s.pcnt == 195) (frmDispatch (completeFrame b s))

end Sys2Proof.Machine
end

