-- ==== Sys2Proof/Machine/Dispatch.lean ====
section
/-! DEFINITION. The dispatch: one arm per operation, each one call of its meaning. -/

namespace Sys2Proof.Machine

def exec (i : Instr) (s : State) : Host.Outcome State Fault Refusal :=
  match i with
  | .synSkip b => Sys2Proof.Machine.execSynSkip b s
  | .synAdv0 => Sys2Proof.Machine.execSynAdv0 s
  | .synAdv1 => Sys2Proof.Machine.execSynAdv1 s
  | .synAdv2 => Sys2Proof.Machine.execSynAdv2 s
  | .synAdv3 => Sys2Proof.Machine.execSynAdv3 s
  | .synAdv4 => Sys2Proof.Machine.execSynAdv4 s
  | .synLock => Sys2Proof.Machine.execSynLock s
  | .synDrop b => Sys2Proof.Machine.execSynDrop b s
  | .payPut b => Sys2Proof.Machine.execPayPut b s
  | .payLast b => Sys2Proof.Machine.execPayLast b s
  | .decSample j => Sys2Proof.Machine.execDecSample j s
  | .cmdEmit => Sys2Proof.Machine.execCmdEmit s
  | .prjProject j => Sys2Proof.Machine.execPrjProject j s
  | .calMin j => Sys2Proof.Machine.execCalMin j s
  | .calFin j => Sys2Proof.Machine.execCalFin j s
  | .selQual j => Sys2Proof.Machine.execSelQual j s
  | .selArgmin => Sys2Proof.Machine.execSelArgmin s
  | .selFire => Sys2Proof.Machine.execSelFire s
  | .frmDispatch => Sys2Proof.Machine.execFrmDispatch s
  | .snkAck => Sys2Proof.Machine.execSnkAck s
  | .errEos => Sys2Proof.Machine.execErrEos s
  | .errShort => Sys2Proof.Machine.execErrShort s
  | .errIo => Sys2Proof.Machine.execErrIo s
  | .snkFail => Sys2Proof.Machine.execSnkFail s
  | .reset => Sys2Proof.Machine.execReset s

end Sys2Proof.Machine
end

