-- ==== Sys2Proof/Machine/Step.lean ====
section
/-! DEFINITION. The step (spec/00_scope.md R14; spec/45_pipeline.md R196, R197): consume the oldest offer the block
admits and run the operation it selects; with none, the block waits and nothing changes (R208). -/

namespace Sys2Proof.Machine

/-- The event-level step function of 45_pipeline.md R196: the selected operation on an admitted event; an event that is
not admitted is not consumed and the state does not change (R197). What then becomes of the event is its caller's: `step`
keeps it on offer (assumption log 4), a run on an event list passes over it (assumption log 15). -/
def eventStep (s : State) (e : InEvent) : Host.Outcome State Fault Refusal :=
  if admits s e then exec (selectEvent s.mp s.pcnt e) s else .next s

/-- One step of the machine with its environment's offers (assumption log 4), without any time (assumption log 13). -/
def step (s : State) : Host.Outcome State Fault Refusal :=
  match nextOffer s with
  | none => .next s
  | some (e, rest) => eventStep { s with offers := rest } e

/-- The state in which the very next step runs the operation `decodeTableWord nbits w` reads: the byte is the oldest
offer, it is admitted, and the match stands where the table's row reads it. For a 16-bit sample pair the payload is
complete but for the pair's high byte, so that the next step is the PAY.LAST that decodes it (assumption log 9). -/
def State.withFetchWord (s : State) (nbits w : Nat) : State :=
  if nbits = 8 then
    { s with
      halted := false
      cv := false
      mp := tablePosition (BitVec.ofNat 8 w)
      pcnt := 0
      offers := .byte (BitVec.ofNat 8 w) :: s.offers }
  else if nbits = 16 then
    { writeByte 194 (BitVec.ofNat 8 w) s with
      halted := false
      cv := false
      mp := 6
      pcnt := 195
      offers := .byte (BitVec.ofNat 8 (w >>> 8)) :: s.offers }
  else s

end Sys2Proof.Machine
end

