-- ==== Sys2Proof/Machine/Run.lean ====
section
/-! DEFINITION. Programs and runs (spec/00_scope.md R5, R14): a program is a finite sequence of input events, and its
result is the sequence of commands produced and the final state; the implied acknowledgements of the stimulus notation
(spec/30_encoding.md R94) and `run_bytes` (spec/45_pipeline.md R199). -/

namespace Sys2Proof.Machine

/-- The state after an event, where the event-level step answers one. -/
def advance (s : State) (e : InEvent) : State :=
  match eventStep s e with
  | .next t => t
  | .fault _ => s
  | .refused _ => s

/-- A run on an event list, `s_k = step(cfg, s_(k-1), e_k)`: the state it ends in (00_scope.md R14). An event of the
list that is not admitted is passed over for good, a held byte among them, where `step` keeps it on offer: DESIGN CHOICE,
unsafe (assumption log 15). -/
def eventRun : State → List InEvent → State
  | s, [] => s
  | s, e :: es => eventRun (advance s e) es

/-- What one event adds to the output: `cmd`, where `cv` goes from 0 to 1 (00_scope.md R14). -/
def eventOutput (s : State) (e : InEvent) : List Byte :=
  if s.cv = false ∧ (advance s e).cv = true then [(advance s e).cmd] else []

/-- The output of a run: the values of `cmd` at each step where `cv` goes from 0 to 1, in order (00_scope.md R14). -/
def runOutput : State → List InEvent → List Byte
  | _, [] => []
  | s, e :: es => eventOutput s e ++ runOutput (advance s e) es

/-- The result of a program (00_scope.md R5): the commands produced, and the final state. -/
structure ProgramResult where
  commands : List Byte
  final : State
  deriving DecidableEq, Repr

/-- A program, any finite sequence of input events with every sink answer written out, run from a state
(00_scope.md R5); events that are not admitted are passed over (assumption log 15). -/
def runProgram (s : State) (program : List InEvent) : ProgramResult where
  commands := runOutput s program
  final := eventRun s program

/-- The event list a stimulus stands for when it does not say `manual-ack`: an acknowledgement is implied immediately
after every step that sets `cv` to 1 (30_encoding.md R94). -/
def withAcks : State → List InEvent → List InEvent
  | _, [] => []
  | s, e :: es =>
    let t := advance s e
    if s.cv = false ∧ t.cv = true then e :: .sinkAck :: withAcks (advance t .sinkAck) es else e :: withAcks t es

/-- `run_bytes`: each byte, then an acknowledgement of the command it produced, if it did; with the state reached, the
commands recorded (45_pipeline.md R199). -/
def runBytes : State → List Byte → State × List Byte
  | s, [] => (s, [])
  | s, b :: bs =>
    let t := advance s (.byte b)
    if t.cv then
      let r := runBytes (advance t .sinkAck) bs
      (r.1, t.cmd :: r.2)
    else runBytes t bs

end Sys2Proof.Machine
end

