-- ==== Sys2Proof/Safety.lean ====
section
/-! DEFINITION. The terms the claims use: when an operation is selected (spec/30_encoding.md R87, R88), the invariant of
every reachable state (spec/10_state.md R37), the arithmetic of the rules on natural numbers, and what is counted of a
run (spec/43_calibrator.md R162; spec/45_pipeline.md R202). -/

namespace Sys2Proof.Machine

/-! ### When an operation is selected -/

/-- The byte source is awaited (45_pipeline.md R197). -/
def SourceAwaited (s : State) : Prop := s.halted = false ∧ s.cv = false

/-- The sink is awaited (45_pipeline.md R197). -/
def SinkAwaited (s : State) : Prop := s.halted = false ∧ s.cv = true

/-- The condition under which the spec selects an operation: the admission of its event (45_pipeline.md R197) and the
condition of its row (30_encoding.md R87, R88; the table's `when`). -/
def Selected : Instr → State → Prop
  | .synSkip b, s => SourceAwaited s ∧ s.mp = 0 ∧ b ≠ 0x02
  | .synAdv0, s => SourceAwaited s ∧ s.mp = 0
  | .synAdv1, s => SourceAwaited s ∧ s.mp = 1
  | .synAdv2, s => SourceAwaited s ∧ s.mp = 2
  | .synAdv3, s => SourceAwaited s ∧ s.mp = 3
  | .synAdv4, s => SourceAwaited s ∧ s.mp = 4
  | .synLock, s => SourceAwaited s ∧ s.mp = 5
  | .synDrop b, s => SourceAwaited s ∧ 1 ≤ s.mp.val ∧ s.mp.val ≤ 5 ∧ sigTable[s.mp.val]? ≠ some b
  | .payPut _, s => SourceAwaited s ∧ s.mp = 6 ∧ s.pcnt.val < 195
  | .payLast _, s => SourceAwaited s ∧ s.mp = 6 ∧ s.pcnt.val = 195
  | .decSample _, s => SourceAwaited s
  | .prjProject _, s => SourceAwaited s
  | .calMin _, s => SourceAwaited s ∧ s.phase = .warmingUp
  | .calFin _, s => SourceAwaited s ∧ s.phase = .warmingUp ∧ s.fc.toNat = s.cfg.warmupFrames
  | .selQual _, s => SourceAwaited s ∧ s.phase = .armed
  | .selArgmin, s => SourceAwaited s ∧ s.phase = .armed
  | .selFire, s => SourceAwaited s ∧ s.phase = .armed
  | .cmdEmit, s => SourceAwaited s ∧ s.phase = .armed
  | .frmDispatch, s => SourceAwaited s
  | .snkAck, s => SinkAwaited s
  | .errEos, s => SourceAwaited s ∧ s.mp = 0
  | .errShort, s => SourceAwaited s ∧ s.mp ≠ 0
  | .errIo, s => SourceAwaited s
  | .snkFail, s => SinkAwaited s
  | .reset, _ => True

/-- The rows of the table that a byte `b` could select, each at the positions of its own condition
(30_encoding.md R87). -/
def rowsForByte (b : Byte) : List Instr :=
  let advances : List (Byte × Instr) :=
    [(0x02, .synAdv0), (0x80, .synAdv1), (0xCE, .synAdv2), (0x00, .synAdv3), (0xB0, .synAdv4), (0x65, .synLock)]
  [.synSkip b, .synDrop b, .payPut b, .payLast b] ++ (advances.filter fun r => r.1 == b).map Prod.snd

/-- An event of the byte source (45_pipeline.md R195). -/
def fromSource : InEvent → Bool
  | .byte _ | .eos | .ioErr => true
  | .sinkAck | .sinkFail | .reset => false

/-! ### The arithmetic of the rules, on natural numbers -/

/-- The sample of index `i` in `FB` (41_decoder.md R131). -/
def sampleNat (s : State) (i : SampleIdx) : Nat :=
  (256 * (readByte s (highAddr i)).toNat + (readByte s (lowAddr i)).toNat) % 8192

/-- `floor((raw × SINQ[i] + 268435456) / 536870912)` (42_projector.md R141). -/
def projNat (raw : Nat) (i : SampleIdx) : Nat := (raw * sineTable.getD i.val 0 + 268435456) / 536870912

/-- The projected distance of index `i` of the frame in `FB`. -/
def frameProjNat (s : State) (i : SampleIdx) : Nat := projNat (sampleNat s i) i

/-- `fin(r)` (43_calibrator.md R158). -/
def finNat (cfg : Config) (r : Nat) : Nat :=
  let c := min r cfg.maxThreshold
  if cfg.margin < c then c - cfg.margin else c

/-- The qualifying test on natural numbers (44_selector.md R176). -/
def QualNat (cfg : Config) (proj ref : Nat) : Prop := proj < ref ∧ proj < cfg.maxThreshold ∧ 0 < proj

/-- What the selector's command says of a set of candidates with distances `d` (44_selector.md R181): `0x00` when there
is none, else the fire bit with the nearest candidate's lowest index. -/
def NearestCommand (q : SampleIdx → Prop) (d : SampleIdx → Nat) (c : Byte) : Prop :=
  ((∀ i, ¬ q i) ∧ c = 0x00) ∨
    ∃ i, q i ∧ (∀ j, q j → d i ≤ d j) ∧ (∀ j, j < i → q j → d i < d j) ∧ c.toNat = 128 + i.val

/-- The command values the block can produce: `0x00`, or fire at an index 0..97 (30_encoding.md R91). -/
def LegalCommand (c : Byte) : Prop := c = 0x00 ∨ (0x80 ≤ c.toNat ∧ c.toNat ≤ 0xE1)

/-! ### The invariant of every reachable state -/

/-- 10_state.md R37, with the error codes of 60_exceptions.md R221, the command values of 30_encoding.md R91, and two
facts of the model's own: no transient between events, and the frame buffer in canonical form. -/
structure State.Inv (s : State) : Prop where
  hunting : s.mp ≠ 6 → s.pcnt = 0
  counted : s.fc.toNat ≤ s.cfg.warmupFrames
  armed_iff : s.phase = .armed ↔ s.fc.toNat = s.cfg.warmupFrames
  fresh : s.fc = 0 → ∀ i : SampleIdx, s.ref[i.val] = infDist
  folded : s.fc ≠ 0 → ∀ i : SampleIdx, s.ref[i.val].toNat ≤ 8191
  frozen : s.phase = .armed → ∀ i : SampleIdx, s.ref[i.val].toNat ≤ s.cfg.maxThreshold
  pending : s.cv = true → s.phase = .armed ∧ s.halted = false ∧ s.mp = 0
  halted_iff : s.halted = true ↔ s.err ≠ 0
  codes : (s.err = 0 ∧ s.ecause = 0) ∨ (s.err = 1 ∧ s.ecause = 0) ∨ (s.err = 2 ∧ s.ecause ≠ 0)
  command : LegalCommand s.cmd
  transients : s.scratch = Scratch.clear
  buffer : s.fb.wf = true

/-! ### Runs -/

/-- A list of operations run one after another, stopping at the first that does not answer a next state. -/
def runOps : List Instr → State → Host.Outcome State Fault Refusal
  | [], s => .next s
  | i :: rest, s =>
    match exec i s with
    | .next t => runOps rest t
    | .fault r => .fault r
    | .refused r => .refused r

/-- The launch state of an instance with configuration `cfg` (10_state.md R36). -/
def launchState (cfg : Config) : State := { State.reset with cfg := cfg }

/-- The frames a byte stream completes from a state, in order, each as the projected distances of its 98 samples: the
bytes that are read as PAY.LAST, with the buffer they complete (43_calibrator.md R162; 45_pipeline.md R202). -/
def completedFrames : State → List Byte → List (SampleIdx → Nat)
  | _, [] => []
  | s, b :: bs =>
    let rest := completedFrames (runBytes s [b]).1 bs
    if s.mp = 6 ∧ s.pcnt = 195 then frameProjNat (writeByte 195 b s) :: rest else rest

/-- The least projected distance of index `i` over a list of frames; `INF` over none (43_calibrator.md R162). -/
def minProj (frames : List (SampleIdx → Nat)) (i : SampleIdx) : Nat :=
  (frames.map fun d => d i).foldl min 65535

/-- How much of the signature the longest possible header start has after `b` is read at match progress `mp`: what a
backtracking matcher would keep (40_synchronizer.md R120). -/
def longestStart (mp : MatchPos) (b : Byte) : Nat :=
  ((List.range 7).filter fun k => (sigTable.take k).isSuffixOf (sigTable.take mp.val ++ [b])).foldl max 0

/-- Two states that differ in the frame buffer and in nothing else. -/
def SameButBuffer (s t : State) : Prop := { s with fb := t.fb } = t

end Sys2Proof.Machine
end

