-- ==== Sys2Proof/Certificates/Slice0/Obligations.lean ====
section
/-! DEFINITION. What is claimed of the model, for the provers: one statement per definition, each with the rule of
spec/ it comes from. -/

open Sys2Proof Sys2Proof.Machine

/-! ### Encodings and the selection of operations -/

/-- Decoding what the encoder writes gives the operation back, for every well-formed operation with every operand
(30_encoding.md R87, R88). -/
def Obligations.DecodeInvertsEncode : Prop :=
  ∀ i : Instr, i.wf = true → decode (encode i) = .ok i

/-- 30_encoding.md R81: a byte is compared with `SIG[mp]` while hunting, and is data while locked. -/
def Obligations.BytesComparedWithSignature : Prop :=
  (∀ b, continuesSig 0 b = true ↔ b = 0x02) ∧ (∀ b, continuesSig 1 b = true ↔ b = 0x80) ∧
  (∀ b, continuesSig 2 b = true ↔ b = 0xCE) ∧ (∀ b, continuesSig 3 b = true ↔ b = 0x00) ∧
  (∀ b, continuesSig 4 b = true ↔ b = 0xB0) ∧ (∀ b, continuesSig 5 b = true ↔ b = 0x65) ∧
  (∀ pcnt b, selectByte 6 pcnt b = .payPut b ∨ selectByte 6 pcnt b = .payLast b)

/-- Words written out from 30_encoding.md R81, R82, R83 and the table: a sanity check of the decoder. At which match
position `decodeTableWord` reads a byte is the model's choice (log entry 9): the position whose signature byte it is,
and 0 for every other byte, so that `55` is read as SYN.SKIP. -/
def Obligations.TableWordsDecode : Prop :=
  decodeTableWord 8 0b00000010 = some .synAdv0 ∧ decodeTableWord 8 0b10000000 = some .synAdv1 ∧
  decodeTableWord 8 0b11001110 = some .synAdv2 ∧ decodeTableWord 8 0b00000000 = some .synAdv3 ∧
  decodeTableWord 8 0b10110000 = some .synAdv4 ∧ decodeTableWord 8 0b01100101 = some .synLock ∧
  decodeTableWord 8 0b01010101 = some (.synSkip 0x55) ∧
  decode (.event 1 0 (.byte 0b00000010)) = .ok (.synDrop 0x02) ∧
  decode (.event 6 0 (.byte 0b11101000)) = .ok (.payPut 0xE8) ∧
  decode (.event 6 195 (.byte 0b00000011)) = .ok (.payLast 0x03) ∧
  sampleOfPair 0b1010001111101000 = 1000 ∧ decodeCommand 0b10101010 = .ok (true, 42)

/-- 30_encoding.md R87, the whole selection table. -/
def Obligations.SelectionTable : Prop :=
  (∀ pcnt b, b ≠ 0x02 → selectEvent 0 pcnt (.byte b) = .synSkip b) ∧
  (∀ pcnt, selectEvent 0 pcnt (.byte 0x02) = .synAdv0 ∧ selectEvent 1 pcnt (.byte 0x80) = .synAdv1 ∧
    selectEvent 2 pcnt (.byte 0xCE) = .synAdv2 ∧ selectEvent 3 pcnt (.byte 0x00) = .synAdv3 ∧
    selectEvent 4 pcnt (.byte 0xB0) = .synAdv4 ∧ selectEvent 5 pcnt (.byte 0x65) = .synLock) ∧
  (∀ (mp : MatchPos) pcnt b, 1 ≤ mp.val → mp.val ≤ 5 → sigTable[mp.val]? ≠ some b →
    selectEvent mp pcnt (.byte b) = .synDrop b) ∧
  (∀ (pcnt : FbAddr) b, pcnt.val < 195 → selectEvent 6 pcnt (.byte b) = .payPut b) ∧
  (∀ b, selectEvent 6 195 (.byte b) = .payLast b) ∧
  (∀ pcnt, selectEvent 0 pcnt .eos = .errEos) ∧
  (∀ (mp : MatchPos) pcnt, 1 ≤ mp.val → selectEvent mp pcnt .eos = .errShort) ∧
  (∀ mp pcnt, selectEvent mp pcnt .ioErr = .errIo ∧ selectEvent mp pcnt .sinkAck = .snkAck ∧
    selectEvent mp pcnt .sinkFail = .snkFail ∧ selectEvent mp pcnt .reset = .reset)

/-- 30_encoding.md R87: the six byte conditions exclude each other and cover every byte in every state, so exactly one
row of the table is selected. -/
def Obligations.OneOperationPerByte : Prop :=
  ∀ s b, SourceAwaited s → ∃! i, i ∈ rowsForByte b ∧ Selected i s

/-- 41_decoder.md R133: the decoder's property, with its bound; and, the spec's own inference, the pairs that give one
sample are those that differ in the ignored bits alone (30_encoding.md R89). The pair the encoder writes is the ignored
bits followed by the sample (R82), so it reaches every pair. -/
def Obligations.SampleOfEveryPair : Prop :=
  (∀ lo hi : Byte, (decodeSample lo hi).toNat = (256 * hi.toNat + lo.toNat) % 8192 ∧
    (decodeSample lo hi).toNat ≤ 8191) ∧
  (∀ lo hi lo' hi' : Byte, decodeSample lo hi = decodeSample lo' hi' ↔ lo = lo' ∧ hi &&& 0x1F = hi' &&& 0x1F) ∧
  (∀ (v : Sample) (ign : BitVec 3), decodeSample (encodeSample v ign).1 (encodeSample v ign).2 = v ∧
    samplePair (encodeSample v ign).1 (encodeSample v ign).2 = (ign ++ v : BitVec 16))

/-- 30_encoding.md R83, R86: the command byte is the index plus the fire bit, and both can be read back. -/
def Obligations.CommandByteFields : Prop :=
  ∀ idx fire, (encodeCommand idx fire).toNat = idx.val + (if fire then 128 else 0) ∧
    decodeCommand (encodeCommand idx fire) = .ok (fire, idx)

/-! ### Admission and the step -/

/-- 45_pipeline.md R197: admission, and what becomes of an event that is not admitted. The last clause, that it stays on
offer, is about the model's own list of offers (log entry 4), and that a stray sink answer stays there to answer the
next command is the model's choice (log entry 12). -/
def Obligations.AdmissionOfEvents : Prop :=
  (∀ s, admits s .reset = true) ∧
  (∀ s b, admits s (.byte b) = true ↔ s.halted = false ∧ s.cv = false) ∧
  (∀ s, admits s .eos = true ↔ s.halted = false ∧ s.cv = false) ∧
  (∀ s, admits s .ioErr = true ↔ s.halted = false ∧ s.cv = false) ∧
  (∀ s, admits s .sinkAck = true ↔ s.halted = false ∧ s.cv = true) ∧
  (∀ s, admits s .sinkFail = true ↔ s.halted = false ∧ s.cv = true) ∧
  (∀ s e, admits s e = false → eventStep s e = .next s) ∧
  (∀ (s : State) e t, e ∈ s.offers → admits s e = false → step s = .next t → e ∈ t.offers)

/-- A step runs the decoded operation: the oldest admitted offer is consumed, the older ones stay, and the operation the
decoder reads runs on the rest; with no admitted offer the block waits (45_pipeline.md R196, R197, R208; the offers are
the model's own field, log entry 4). -/
def Obligations.StepRunsDecodedOperation : Prop :=
  (∀ (s : State) e before after i, s.offers = before ++ e :: after → (∀ x ∈ before, admits s x = false) → admits s e = true →
    decode (.event s.mp s.pcnt e) = .ok i → step s = exec i { s with offers := before ++ after }) ∧
  (∀ s : State, (∀ e ∈ s.offers, admits s e = false) → step s = .next s)

/-- 30_encoding.md R90: no input is illegal and none raises an error; a step never faults and never refuses. -/
def Obligations.StepAlwaysAnswersNext : Prop := ∀ s, ∃ t, step s = .next t

/-- Every operation answers a next state exactly where the spec selects it, and is refused by name elsewhere (the
refusal is the model's choice, log entry 6; 30_encoding.md R87, R88; 45_pipeline.md R197). -/
def Obligations.OperationsRunWhereSelected : Prop :=
  ∀ i s, (Selected i s → ∃ t, exec i s = .next t) ∧ (¬ Selected i s → exec i s = .refused .notSelected)

/-! ### The synchronizer -/

/-- 40_synchronizer.md R111: SYN.SKIP discards the byte and changes nothing. -/
def Obligations.SkipDiscardsByte : Prop :=
  ∀ b s, SourceAwaited s → s.mp = 0 → b ≠ 0x02 → exec (.synSkip b) s = .next s

/-- 40_synchronizer.md R112: SYN.ADV adds one to the match progress and changes nothing else. -/
def Obligations.AdvanceAddsOne : Prop :=
  ∀ s, SourceAwaited s →
    (s.mp = 0 → exec .synAdv0 s = .next { s with mp := 1 }) ∧ (s.mp = 1 → exec .synAdv1 s = .next { s with mp := 2 }) ∧
    (s.mp = 2 → exec .synAdv2 s = .next { s with mp := 3 }) ∧ (s.mp = 3 → exec .synAdv3 s = .next { s with mp := 4 }) ∧
    (s.mp = 4 → exec .synAdv4 s = .next { s with mp := 5 })

/-- 40_synchronizer.md R113: SYN.LOCK starts the payload and changes nothing else. -/
def Obligations.LockStartsPayload : Prop :=
  ∀ s, SourceAwaited s → s.mp = 5 → exec .synLock s = .next { s with mp := 6, pcnt := 0 }

/-- 40_synchronizer.md R114: SYN.DROP restarts the search and loses the byte, a `02` among them. -/
def Obligations.DropLosesByte : Prop :=
  (∀ b s, SourceAwaited s → 1 ≤ s.mp.val → s.mp.val ≤ 5 → sigTable[s.mp.val]? ≠ some b →
    exec (.synDrop b) s = .next { s with mp := 0 }) ∧
  (∀ s, SourceAwaited s → 1 ≤ s.mp.val → s.mp.val ≤ 5 → eventStep s (.byte 0x02) = .next { s with mp := 0 })

/-- 40_synchronizer.md R115: PAY.PUT stores the byte at `pcnt` and adds one to `pcnt`; nothing else changes. The
byte is read back from a buffer in canonical form, which the write keeps (log entry 5). -/
def Obligations.PutStoresPayloadByte : Prop :=
  ∀ b s, SourceAwaited s → s.mp = 6 → s.pcnt.val < 195 →
    ∃ t, exec (.payPut b) s = .next t ∧ (s.fb.wf = true → readByte t s.pcnt = b ∧ t.fb.wf = true) ∧
      (∀ a, a ≠ s.pcnt → readByte t a = readByte s a) ∧
      t.pcnt.val = s.pcnt.val + 1 ∧ t = { s with fb := t.fb, pcnt := t.pcnt }

/-- 40_synchronizer.md R116: PAY.LAST stores byte 195, returns to the search, and is FRM.DISPATCH from there. The byte is
read back from a buffer in canonical form, which the write keeps (log entry 5). -/
def Obligations.LastCompletesFrame : Prop :=
  ∀ b s, SourceAwaited s → s.mp = 6 → s.pcnt = 195 →
    ∃ u t, u = { s with fb := u.fb, mp := 0, pcnt := 0 } ∧ (s.fb.wf = true → readByte u 195 = b ∧ u.fb.wf = true) ∧
      (∀ a, a ≠ 195 → readByte u a = readByte s a) ∧
      exec (.payLast b) s = .next t ∧ exec .frmDispatch u = .next t

/-- 40_synchronizer.md R119 (the spec's own inference): the sixth byte of a signature takes SYN.LOCK if and only if `mp = 0` when its first byte is
consumed. -/
def Obligations.LockExactlyFromIdle : Prop :=
  ∀ s, SourceAwaited s →
    let u := (runBytes s [0x02, 0x80, 0xCE, 0x00, 0xB0]).1
    selectByte u.mp u.pcnt 0x65 = .synLock ↔ s.mp = 0

/-- 40_synchronizer.md R120 (the spec's own inference): while hunting, the matcher moves as a backtracking matcher would, except on a `02` that
breaks a partial match, where that one would go to 1 and this one goes to 0. -/
def Obligations.DiffersFromBacktrackingOnlyAtDrop : Prop :=
  ∀ s b t, SourceAwaited s → s.mp ≠ 6 → eventStep s (.byte b) = .next t →
    (t.mp.val = longestStart s.mp b ∨ (s.mp ≠ 0 ∧ b = 0x02 ∧ t.mp = 0 ∧ longestStart s.mp b = 1)) ∧
    (s.mp ≠ 0 → b = 0x02 → t.mp = 0 ∧ longestStart s.mp b = 1)

/-- 40_synchronizer.md R118: `k` bytes of garbage, then one frame, take exactly `k + 6 + 196` steps, each consuming one
byte, and yield that one frame: the samples in the buffer are the frame's, a warm-up frame is counted, a live frame
produces its command. The buffer is in canonical form at the start (log entry 5), and the bytes are the model's own
offers, of which the rest stays (log entry 4). -/
def Obligations.GarbageThenFrameConsumed : Prop :=
  ∀ s (garbage : List Byte) v ign rest, SourceAwaited s → s.mp = 0 → s.fb.wf = true → (∀ b ∈ garbage, b ≠ 0x02) →
    ∃ t, Host.Core.run Sys2Proof.core (garbage.length + 6 + 196)
        ({ s with offers := (garbage ++ frameBytes v ign).map .byte ++ rest } : State) = .next t ∧
      t.offers = rest ∧ t.mp = 0 ∧ t.pcnt = 0 ∧ (∀ i, sampleNat t i = (v i).toNat) ∧
      (s.phase = .warmingUp → t.fc = s.fc + 1) ∧
      (s.phase = .armed → t.cv = true ∧ t.ref = s.ref ∧
        NearestCommand (fun i => QualNat s.cfg (projNat (v i).toNat i) s.ref[i.val].toNat)
          (fun i => projNat (v i).toNat i) t.cmd)

/-- What SYN.SKIP, SYN.ADV0 to SYN.ADV4, SYN.LOCK and SYN.DROP leave unchanged: every item but `mp`, and `pcnt` by
SYN.LOCK alone; every byte of memory (45_pipeline.md R196; 40_synchronizer.md R111 to R114). -/
def Obligations.HuntingFrame : Prop :=
  ∀ b i s t, i ∈ [Instr.synSkip b, .synAdv0, .synAdv1, .synAdv2, .synAdv3, .synAdv4, .synLock, .synDrop b] →
    exec i s = .next t →
    t = { s with mp := t.mp, pcnt := t.pcnt } ∧ (i ≠ .synLock → t.pcnt = s.pcnt) ∧
      ∀ a, readByte t a = readByte s a

/-- What PAY.PUT and PAY.LAST leave unchanged: every byte of memory but the one stored, at `pcnt`; PAY.PUT every other
item but `pcnt`; PAY.LAST the configuration, the offers, the error registers, and while ARMED the baseline, the frame
count and the phase (45_pipeline.md R196, R200; 40_synchronizer.md R115, R116). -/
def Obligations.PayloadFrame : Prop :=
  ∀ b s t,
    (exec (.payPut b) s = .next t →
      t = { s with fb := t.fb, pcnt := t.pcnt } ∧ ∀ a, a ≠ s.pcnt → readByte t a = readByte s a) ∧
    (exec (.payLast b) s = .next t →
      (∀ a, a ≠ s.pcnt → readByte t a = readByte s a) ∧
      t = { s with
        mp := t.mp, pcnt := t.pcnt, fb := t.fb, fc := t.fc, phase := t.phase, ref := t.ref, cv := t.cv, cmd := t.cmd,
        scratch := Scratch.clear } ∧
      (s.phase = .armed → t.fc = s.fc ∧ t.phase = s.phase ∧ t.ref = s.ref))

/-! ### Decoder, projector, calibrator, selector -/

/-- 41_decoder.md R131: DEC.SAMPLE(i) writes `SAMP[i]` and nothing else. -/
def Obligations.DecodeWritesSample : Prop :=
  ∀ i s, SourceAwaited s →
    ∃ t, exec (.decSample i) s = .next t ∧ t.scratch.samp[i.val].toNat = sampleNat s i ∧
      (∀ j : SampleIdx, j ≠ i → t.scratch.samp[j.val] = s.scratch.samp[j.val]) ∧
      t = { s with scratch := { s.scratch with samp := t.scratch.samp } }

/-- 42_projector.md R141: PRJ.PROJECT(i) writes `PROJ[i]` and nothing else. -/
def Obligations.ProjectWritesDistance : Prop :=
  ∀ i s, SourceAwaited s →
    ∃ t, exec (.prjProject i) s = .next t ∧
      t.scratch.proj[i.val].toNat = projNat s.scratch.samp[i.val].toNat i ∧
      (∀ j : SampleIdx, j ≠ i → t.scratch.proj[j.val] = s.scratch.proj[j.val]) ∧
      t = { s with scratch := { s.scratch with proj := t.scratch.proj } }

/-- 43_calibrator.md R156: CAL.MIN(i) lowers `REF[i]` to the frame's distance and writes nothing else. -/
def Obligations.CalMinLowersBaseline : Prop :=
  ∀ i s, SourceAwaited s → s.phase = .warmingUp →
    ∃ t, exec (.calMin i) s = .next t ∧
      t.ref[i.val].toNat = min s.ref[i.val].toNat s.scratch.proj[i.val].toNat ∧
      (∀ j : SampleIdx, j ≠ i → t.ref[j.val] = s.ref[j.val]) ∧ t = { s with ref := t.ref }

/-- CAL.FIN(i) finalises `REF[i]`; that the closing write of `phase` belongs to index 97 is the model's reading, log
entry 7 (43_calibrator.md R157). -/
def Obligations.CalFinFinalisesBaseline : Prop :=
  ∀ i s, SourceAwaited s → s.phase = .warmingUp → s.fc.toNat = s.cfg.warmupFrames →
    ∃ t, exec (.calFin i) s = .next t ∧ t.ref[i.val].toNat = finNat s.cfg s.ref[i.val].toNat ∧
      (∀ j : SampleIdx, j ≠ i → t.ref[j.val] = s.ref[j.val]) ∧
      t.phase = (if i = 97 then .armed else .warmingUp) ∧ t = { s with ref := t.ref, phase := t.phase }

/-- 44_selector.md R176: SEL.QUAL(i) writes the three-part test to `QUAL[i]` and nothing else. -/
def Obligations.QualWritesThreePartTest : Prop :=
  ∀ i s, SourceAwaited s → s.phase = .armed →
    ∃ t, exec (.selQual i) s = .next t ∧
      (t.scratch.qual[i.val] = true ↔
        s.scratch.proj[i.val].toNat < s.ref[i.val].toNat ∧ s.scratch.proj[i.val].toNat < s.cfg.maxThreshold ∧
          0 < s.scratch.proj[i.val].toNat) ∧
      (∀ j : SampleIdx, j ≠ i → t.scratch.qual[j.val] = s.scratch.qual[j.val]) ∧
      t = { s with scratch := { s.scratch with qual := t.scratch.qual } }

/-- 44_selector.md R178: SEL.ARGMIN finds the least candidate value and its first index, or keeps `INF` and 0; it writes
`best` and `idx` and nothing else. -/
def Obligations.ArgminFindsNearest : Prop :=
  ∀ s, SourceAwaited s → s.phase = .armed →
    let val : SampleIdx → Nat := fun i => if s.scratch.qual[i.val] then s.scratch.proj[i.val].toNat else 65535
    ∃ t, exec .selArgmin s = .next t ∧
      ((∀ i, val i = 65535) → t.scratch.best = 0xFFFF ∧ t.scratch.idx = 0) ∧
      ((∃ i, val i < 65535) → t.scratch.best.toNat = val t.scratch.idx ∧ (∀ j, val t.scratch.idx ≤ val j) ∧
        ∀ j, j < t.scratch.idx → val t.scratch.idx < val j) ∧
      t = { s with scratch := { s.scratch with best := t.scratch.best, idx := t.scratch.idx } }

/-- 44_selector.md R179: SEL.FIRE re-validates the selected index. -/
def Obligations.FireRevalidatesSelected : Prop :=
  ∀ s, SourceAwaited s → s.phase = .armed →
    exec .selFire s =
      .next { s with scratch := { s.scratch with fire := s.scratch.qual[s.scratch.idx.val] } }

/-- 44_selector.md R180: CMD.EMIT presents `idx | (fire << 7)`; it writes `cmd` and `cv` and nothing else. -/
def Obligations.EmitPresentsCommand : Prop :=
  ∀ s, SourceAwaited s → s.phase = .armed →
    ∃ t, exec .cmdEmit s = .next t ∧ t.cmd.toNat = s.scratch.idx.val + (if s.scratch.fire then 128 else 0) ∧
      t = { s with cmd := t.cmd, cv := true }

/-- What the stages leave unchanged: DEC.SAMPLE, PRJ.PROJECT, SEL.QUAL, SEL.ARGMIN and SEL.FIRE every item but the
transients; CAL.MIN every item but the baseline; CAL.FIN every item but the baseline and the phase; CMD.EMIT every item
but `cmd` and `cv`; all of them every byte of memory (10_state.md R32; 41_decoder.md R131; 44_selector.md R175). -/
def Obligations.StageFrame : Prop :=
  ∀ i s t,
    (∀ o ∈ [Instr.decSample i, .prjProject i, .selQual i, .selArgmin, .selFire], exec o s = .next t →
      t = { s with scratch := t.scratch } ∧ ∀ a, readByte t a = readByte s a) ∧
    (exec (.calMin i) s = .next t → t = { s with ref := t.ref } ∧ ∀ a, readByte t a = readByte s a) ∧
    (exec (.calFin i) s = .next t →
      t = { s with ref := t.ref, phase := t.phase } ∧ ∀ a, readByte t a = readByte s a) ∧
    (exec .cmdEmit s = .next t → t = { s with cmd := t.cmd, cv := t.cv } ∧ ∀ a, readByte t a = readByte s a)

/-- 43_calibrator.md R158 (the spec's own inference): the finalisation as a function, with its bounds. -/
def Obligations.FinalisationBounds : Prop :=
  ∀ (cfg : Config) (r : Dist),
    (finalise cfg r).toNat =
      (if cfg.margin < min r.toNat cfg.maxThreshold then min r.toNat cfg.maxThreshold - cfg.margin
        else min r.toNat cfg.maxThreshold) ∧
    (finalise cfg r).toNat ≤ min r.toNat cfg.maxThreshold ∧
    (cfg.margin < cfg.maxThreshold → cfg.maxThreshold ≤ r.toNat →
      (finalise cfg r).toNat ≤ cfg.maxThreshold - cfg.margin) ∧
    (cfg.maxThreshold ≤ cfg.margin → (finalise cfg r).toNat = min r.toNat cfg.maxThreshold)

/-- 42_projector.md R145 (the spec's own inference): range, zero, monotonicity, the 90 degree index, and the lower bound of the projection. -/
def Obligations.ProjectionRange : Prop :=
  ∀ (raw : Sample) (i : SampleIdx),
    (project raw i).toNat ≤ raw.toNat ∧ (project raw i).toNat ≤ 8191 ∧ (project raw i = 0 ↔ raw = 0) ∧
    (∀ raw' : Sample, raw.toNat ≤ raw'.toNat → (project raw i).toNat ≤ (project raw' i).toNat) ∧
    (project raw 50).toNat = raw.toNat ∧ (642787 * raw.toNat + 500000) / 1000000 ≤ (project raw i).toNat ∧
    (project 8191 0).toNat = 5265 ∧ 5265 ≤ (project 8191 i).toNat

/-- 42_projector.md R142 (the spec's own computation): each entry of the sine table is the real sine, scaled and rounded to the nearest integer. -/
def Obligations.SineTableIsRoundedSine : Prop :=
  ∀ i : SampleIdx, ((sinq i).toNat : ℤ) = round (Real.sin ((angle i : ℝ) * Real.pi / 180) * 2 ^ 29)

/-- 42_projector.md R144 (the spec's own computation): the fixed-point projection is JP's real-number formula of R140, on
every sample and index. -/
def Obligations.ProjectionIsRealFormula : Prop :=
  ∀ (raw : Sample) (i : SampleIdx),
    ((project raw i).toNat : ℤ) = round ((raw.toNat : ℝ) * Real.sin ((angle i : ℝ) * Real.pi / 180))

/-! ### Frame dispatch -/

/-- A frame inside the warm-up lowers the baseline and is counted, and nothing else remains of it
(45_pipeline.md R200; 43_calibrator.md R156). -/
def Obligations.DispatchDuringWarmup : Prop :=
  ∀ s, SourceAwaited s → s.phase = .warmingUp → (s.fc + 1).toNat ≠ s.cfg.warmupFrames →
    ∃ t, exec .frmDispatch s = .next t ∧
      (∀ i : SampleIdx, t.ref[i.val].toNat = min s.ref[i.val].toNat (frameProjNat s i)) ∧
      t = { s with ref := t.ref, fc := s.fc + 1, scratch := Scratch.clear }

/-- The frame that ends the warm-up finalises the baseline, arms the block, and produces the command `0x00`
(45_pipeline.md R200; 43_calibrator.md R157, R160, R161). -/
def Obligations.DispatchArmsBlock : Prop :=
  ∀ s, SourceAwaited s → s.phase = .warmingUp → (s.fc + 1).toNat = s.cfg.warmupFrames →
    ∃ t, exec .frmDispatch s = .next t ∧
      (∀ i : SampleIdx, t.ref[i.val].toNat = finNat s.cfg (min s.ref[i.val].toNat (frameProjNat s i))) ∧
      t = { s with
        ref := t.ref, fc := s.fc + 1, phase := .armed, cmd := 0x00, cv := true, scratch := Scratch.clear }

/-- A live frame produces the command of its nearest qualifying index and touches neither the baseline nor the count
(45_pipeline.md R200; 44_selector.md R181). -/
def Obligations.DispatchSelectsTarget : Prop :=
  ∀ s, SourceAwaited s → s.phase = .armed →
    ∃ t, exec .frmDispatch s = .next t ∧
      NearestCommand (fun i => QualNat s.cfg (frameProjNat s i) s.ref[i.val].toNat) (frameProjNat s) t.cmd ∧
      t = { s with cmd := t.cmd, cv := true, scratch := Scratch.clear }

/-- 30_encoding.md R88: frame dispatch is its stage operations, run in the order of the table; the frame count moves
between CAL.MIN and CAL.FIN (45_pipeline.md R200), and the transients end with the frame (log entry 3). -/
def Obligations.DispatchIsItsStages : Prop :=
  ∀ s, SourceAwaited s →
    (frameKind s = .warmup → ∃ u, runOps (frameOps .warmup) s = .next u ∧
      exec .frmDispatch s = .next { u with fc := s.fc + 1, scratch := Scratch.clear }) ∧
    (frameKind s = .arming → ∃ u v, runOps (frameOps .warmup) s = .next u ∧
      runOps (eachIdx .calFin ++ selectorOps) { u with fc := s.fc + 1 } = .next v ∧
      frameOps .arming = frameOps .warmup ++ (eachIdx .calFin ++ selectorOps) ∧
      exec .frmDispatch s = .next { v with scratch := Scratch.clear }) ∧
    (frameKind s = .live → ∃ u, runOps (frameOps .live) s = .next u ∧
      exec .frmDispatch s = .next { u with scratch := Scratch.clear })

/-- 45_pipeline.md R201 (the spec's own inference): frame processing is a function of the configuration, the phase, the count, the baseline and the
frame buffer; in particular it does not depend on `mp`, `pcnt`, `cmd` or the transients. -/
def Obligations.DispatchIsPureFunction : Prop :=
  ∀ s s' t t' : State, s.cfg = s'.cfg → s.phase = s'.phase → s.fc = s'.fc → s.ref = s'.ref →
    (∀ a, readByte s a = readByte s' a) → exec .frmDispatch s = .next t → exec .frmDispatch s' = .next t' →
    t.phase = t'.phase ∧ t.fc = t'.fc ∧ t.ref = t'.ref ∧ t.cv = t'.cv ∧ (t.cv = true → t.cmd = t'.cmd)

/-- 44_selector.md R183, item 1 (the spec's own inference from JP's property), with the side condition it needs: one index just under its baseline, every other at or
above, gives the fire command of that index. -/
def Obligations.SingleIntruderDetected : Prop :=
  ∀ s (i : SampleIdx), SourceAwaited s → s.phase = .armed → s.ref[i.val].toNat ≤ s.cfg.maxThreshold →
    2 ≤ s.ref[i.val].toNat → frameProjNat s i = s.ref[i.val].toNat - 1 →
    (∀ j : SampleIdx, j ≠ i → s.ref[j.val].toNat ≤ frameProjNat s j) →
    ∃ t, exec .frmDispatch s = .next t ∧ t.cv = true ∧ t.cmd.toNat = 128 + i.val

/-- 30_encoding.md R91 (the spec's own inference): a frame never produces a reserved command value, nor a no-fire command with an index. -/
def Obligations.OnlyLegalCommands : Prop :=
  ∀ s t, exec .frmDispatch s = .next t → t.cv = true → LegalCommand t.cmd

/-! ### The sink, errors and reset -/

/-- 45_pipeline.md R204: SNK.ACK clears `cv` and changes nothing else. -/
def Obligations.AckClearsPending : Prop :=
  ∀ s, SinkAwaited s → exec .snkAck s = .next { s with cv := false }

/-- ERR.EOS, ERR.SHORT, ERR.IO and SNK.FAIL halt with their codes and keep every other item (60_exceptions.md R222 to
R225, R230). -/
def Obligations.ErrorsHaltWithCodes : Prop :=
  (∀ s, SourceAwaited s → s.mp = 0 → exec .errEos s = .next { s with halted := true, err := 1, ecause := 0 }) ∧
  (∀ s, SourceAwaited s → s.mp ≠ 0 → exec .errShort s = .next { s with halted := true, err := 2, ecause := 2 }) ∧
  (∀ s, SourceAwaited s → exec .errIo s = .next { s with halted := true, err := 2, ecause := 1 }) ∧
  (∀ s, SinkAwaited s →
    exec .snkFail s = .next { s with cv := false, halted := true, err := 2, ecause := 3 })

/-- What the error operations and SNK.ACK leave unchanged: every item but `halted`, `err`, `ecause` and `cv`, and every
byte of memory; the first three error operations leave `cv` too, SNK.ACK the error registers (60_exceptions.md R230;
45_pipeline.md R204). -/
def Obligations.ErrorFrame : Prop :=
  ∀ i s t, i ∈ [Instr.errEos, .errShort, .errIo, .snkFail, .snkAck] → exec i s = .next t →
    t = { s with cv := t.cv, halted := t.halted, err := t.err, ecause := t.ecause } ∧
    (i ≠ .snkFail → i ≠ .snkAck → t.cv = s.cv) ∧
    (i = .snkAck → t.halted = s.halted ∧ t.err = s.err ∧ t.ecause = s.ecause) ∧
    ∀ a, readByte t a = readByte s a

/-- 60_exceptions.md R230: after an error no event but `Reset` is admitted; a program without `Reset` then produces no
command and ends where it began. A program's events that are not admitted are passed over, the model's choice (log
entry 15). -/
def Obligations.HaltAdmitsOnlyReset : Prop :=
  (∀ (s : State) e, s.halted = true → e ≠ .reset → admits s e = false ∧ eventStep s e = .next s) ∧
  (∀ s : State, s.halted = true → .reset ∉ s.offers → step s = .next s) ∧
  (∀ i (s t : State), s.halted = true → exec i s = .next t → i = .reset) ∧
  (∀ (s : State) program, s.halted = true → .reset ∉ program →
    runProgram s program = { commands := [], final := s })

/-- 70_reset_and_hazards.md R260 and 10_state.md R36: RESET, from every state. That the buffer then reads as before is the
model's choice (log entry 5; the spec leaves its content after reset unspecified), and that the environment's offers
stay is about the model's own field (log entry 4); the configuration is not touched (R261). -/
def Obligations.ResetStartsSession : Prop :=
  ∀ s, ∃ t, exec .reset s = .next t ∧ eventStep s .reset = .next t ∧
    t.mp = 0 ∧ t.pcnt = 0 ∧ t.fc = 0 ∧ t.phase = .warmingUp ∧ (∀ i : SampleIdx, t.ref[i.val] = 0xFFFF) ∧
    t.cv = false ∧ t.cmd = 0x00 ∧ t.halted = false ∧ t.err = 0 ∧ t.ecause = 0 ∧
    t.cfg = s.cfg ∧ t.fb = s.fb ∧ (∀ a, readByte t a = readByte s a) ∧ t.offers = s.offers

/-- The launch state of every instance has the values of 10_state.md R36; that a block starts in them is the model's
choice (log entry 10). The status outputs are all zero (R35). -/
def Obligations.LaunchStateValues : Prop :=
  ∀ cfg, let s := launchState cfg
    s.mp = 0 ∧ s.pcnt = 0 ∧ s.fc = 0 ∧ s.phase = .warmingUp ∧ (∀ i : SampleIdx, s.ref[i.val] = 0xFFFF) ∧
    s.cv = false ∧ s.cmd = 0x00 ∧ s.halted = false ∧ s.err = 0 ∧ s.ecause = 0 ∧
    status s = { phase := 0, fc := 0, mp := 0, halted := 0, err := 0, ecause := 0, cv := 0, cmd := 0 }

/-! ### Whole-machine rules -/

/-- 10_state.md R31: the configuration is written by no operation, RESET included. -/
def Obligations.ConfigurationNeverWritten : Prop :=
  (∀ i s t, exec i s = .next t → t.cfg = s.cfg) ∧ (∀ s t, step s = .next t → t.cfg = s.cfg)

/-- 43_calibrator.md R159: once ARMED, no operation but RESET writes the baseline, the count or the phase. -/
def Obligations.BaselineFrozenWhenArmed : Prop :=
  ∀ i (s t : State), s.phase = .armed → i ≠ .reset → exec i s = .next t →
    t.ref = s.ref ∧ t.fc = s.fc ∧ t.phase = .armed

/-- 10_state.md R26: the baseline is written by CAL.MIN, CAL.FIN (alone or inside a frame) and RESET only, and by the
first two only while WARMING_UP. -/
def Obligations.BaselineWriters : Prop :=
  ∀ i s t, exec i s = .next t → t.ref ≠ s.ref →
    i = .reset ∨ (s.phase = .warmingUp ∧
      (i = .frmDispatch ∨ (∃ b, i = .payLast b) ∨ (∃ j, i = .calMin j) ∨ ∃ j, i = .calFin j))

/-- 10_state.md R24: how the operations move the sequencing registers, from every state in which `pcnt` is 0 while
hunting; no other operation but RESET writes them. -/
def Obligations.SequencingRegisters : Prop :=
  ∀ i (s t : State), (s.mp ≠ 6 → s.pcnt = 0) → exec i s = .next t →
    match i with
    | .synSkip _ => s.mp = 0 ∧ t.mp = 0 ∧ t.pcnt = 0
    | .synAdv0 | .synAdv1 | .synAdv2 | .synAdv3 | .synAdv4 => t.mp.val = s.mp.val + 1 ∧ t.pcnt = 0
    | .synLock => s.mp = 5 ∧ t.mp = 6 ∧ t.pcnt = 0
    | .synDrop _ => 1 ≤ s.mp.val ∧ s.mp.val ≤ 5 ∧ t.mp = 0 ∧ t.pcnt = 0
    | .payPut _ => s.mp = 6 ∧ t.mp = 6 ∧ t.pcnt.val = s.pcnt.val + 1
    | .payLast _ => s.mp = 6 ∧ s.pcnt = 195 ∧ t.mp = 0 ∧ t.pcnt = 0
    | .reset => t.mp = 0 ∧ t.pcnt = 0
    | _ => t.mp = s.mp ∧ t.pcnt = s.pcnt

/-- 20_memory.md R60, item 3, and 45_pipeline.md R203: while a command is pending no event of the byte source is
consumed, and the command is stable until the sink answers or `Reset` withdraws it. -/
def Obligations.PendingCommandHoldsSource : Prop :=
  ∀ s t : State, s.cv = true → step s = .next t →
    t.offers.filter fromSource = s.offers.filter fromSource ∧
    (t.cv = true → t.cmd = s.cmd) ∧ (t.cmd ≠ s.cmd → .reset ∈ s.offers)

/-- 10_state.md R37 at the launch state of every instance, whatever is offered. -/
def Obligations.InvariantAtLaunch : Prop :=
  ∀ cfg offers, ({ launchState cfg with offers := offers } : State).Inv

/-- 10_state.md R37 (the spec's own inference): every step keeps the invariant; its two last clauses, the transients and
the buffer's form, are the model's own (log entries 3, 5). -/
def Obligations.InvariantKeptByStep : Prop :=
  ∀ s t : State, s.Inv → step s = .next t → t.Inv

/-- 10_state.md R25 (the spec's own inference): what the frame buffer holds while hunting is unobservable: from two states
that differ in nothing else, every program produces the same commands and ends in states that differ in nothing else.
Both buffers are in canonical form (log entry 5). A program's events that are not admitted are passed over, the model's
choice (log entry 15). -/
def Obligations.OldBufferUnobservable : Prop :=
  ∀ s s' program, SameButBuffer s s' → s.fb.wf = true → s'.fb.wf = true → s.mp ≠ 6 →
    (runProgram s program).commands = (runProgram s' program).commands ∧
    SameButBuffer (runProgram s program).final (runProgram s' program).final

/-- 70_reset_and_hazards.md R277: the ignored bits of a frame reach no output and no state but the raw bytes in the
buffer, which is in canonical form at the start (log entry 5). That `encodeSample` places the bits `ign` is a clause of
SampleOfEveryPair. -/
def Obligations.IgnoredBitsReachNothing : Prop :=
  ∀ s v ign ign', SourceAwaited s → s.mp = 0 → s.fb.wf = true →
    (runBytes s (frameBytes v ign)).2 = (runBytes s (frameBytes v ign')).2 ∧
    SameButBuffer (runBytes s (frameBytes v ign)).1 (runBytes s (frameBytes v ign')).1

/-- 43_calibrator.md R161 (the spec's own inference): on a frame that was folded in no index qualifies after
finalisation, and the first command of every session, from any `Reset` on, is `0x00`, for every configuration, every
byte stream, and every program, whatever its sink answers, errors and further resets. A program's events that are not
admitted are passed over, the model's choice (log entry 15). -/
def Obligations.FirstCommandNeverFires : Prop :=
  (∀ cfg r p, ¬ QualNat cfg p (finNat cfg (min r p))) ∧
  (∀ s u bytes c rest, exec .reset s = .next u → (runBytes u bytes).2 = c :: rest → c = 0x00) ∧
  (∀ s u program c rest, exec .reset s = .next u → (runProgram u program).commands = c :: rest → c = 0x00)

/-- 43_calibrator.md R162 (the spec's own inference): the baseline in closed form, before arming and from the arming step on, over the frames that
any byte stream completes from a `Reset` on; the sentinel never reaches the finalisation. -/
def Obligations.BaselineClosedForm : Prop :=
  ∀ s u bytes, exec .reset s = .next u →
    let frames := completedFrames u bytes
    let t := (runBytes u bytes).1
    (1 ≤ frames.length → frames.length < s.cfg.warmupFrames → ∀ i : SampleIdx, t.ref[i.val].toNat = minProj frames i) ∧
    (s.cfg.warmupFrames ≤ frames.length → ∀ i : SampleIdx,
      t.ref[i.val].toNat = finNat s.cfg (minProj (frames.take s.cfg.warmupFrames) i) ∧
        minProj (frames.take s.cfg.warmupFrames) i ≤ 8191)

/-- 45_pipeline.md R202 (the spec's own inference): a session that completes `F` frames produces `max(0, F − WARMUP_FRAMES + 1)` commands, and this
holds of every beginning of it too, so that there is one for each frame from `WARMUP_FRAMES` on, in their order. -/
def Obligations.CommandsPerSession : Prop :=
  ∀ s u bytes more, exec .reset s = .next u →
    (runBytes u bytes).2.length = (completedFrames u bytes).length + 1 - s.cfg.warmupFrames ∧
    (runBytes u bytes).2 =
      (runBytes u (bytes ++ more)).2.take ((completedFrames u bytes).length + 1 - s.cfg.warmupFrames)
end

