-- ==== Sys2Proof/Laws/State.lean ====
section
/-! SUPPORT. What each named update of the state does to each field, one lemma per field, all by `rfl`. -/

namespace Sys2Proof.Machine

@[simp] theorem writeByte_cfg (a : FbAddr) (v : Byte) (s : State) : (writeByte a v s).cfg = s.cfg := rfl
@[simp] theorem writeByte_mp (a : FbAddr) (v : Byte) (s : State) : (writeByte a v s).mp = s.mp := rfl
@[simp] theorem writeByte_pcnt (a : FbAddr) (v : Byte) (s : State) : (writeByte a v s).pcnt = s.pcnt := rfl
@[simp] theorem writeByte_fb (a : FbAddr) (v : Byte) (s : State) : (writeByte a v s).fb = Memory.store s.fb a.val v := rfl
@[simp] theorem writeByte_fc (a : FbAddr) (v : Byte) (s : State) : (writeByte a v s).fc = s.fc := rfl
@[simp] theorem writeByte_phase (a : FbAddr) (v : Byte) (s : State) : (writeByte a v s).phase = s.phase := rfl
@[simp] theorem writeByte_ref (a : FbAddr) (v : Byte) (s : State) : (writeByte a v s).ref = s.ref := rfl
@[simp] theorem writeByte_cv (a : FbAddr) (v : Byte) (s : State) : (writeByte a v s).cv = s.cv := rfl
@[simp] theorem writeByte_cmd (a : FbAddr) (v : Byte) (s : State) : (writeByte a v s).cmd = s.cmd := rfl
@[simp] theorem writeByte_halted (a : FbAddr) (v : Byte) (s : State) : (writeByte a v s).halted = s.halted := rfl
@[simp] theorem writeByte_err (a : FbAddr) (v : Byte) (s : State) : (writeByte a v s).err = s.err := rfl
@[simp] theorem writeByte_ecause (a : FbAddr) (v : Byte) (s : State) : (writeByte a v s).ecause = s.ecause := rfl
@[simp] theorem writeByte_scratch (a : FbAddr) (v : Byte) (s : State) : (writeByte a v s).scratch = s.scratch := rfl
@[simp] theorem writeByte_offers (a : FbAddr) (v : Byte) (s : State) : (writeByte a v s).offers = s.offers := rfl

@[simp] theorem writeRef_cfg (i : SampleIdx) (d : Dist) (s : State) : (writeRef i d s).cfg = s.cfg := rfl
@[simp] theorem writeRef_mp (i : SampleIdx) (d : Dist) (s : State) : (writeRef i d s).mp = s.mp := rfl
@[simp] theorem writeRef_pcnt (i : SampleIdx) (d : Dist) (s : State) : (writeRef i d s).pcnt = s.pcnt := rfl
@[simp] theorem writeRef_fb (i : SampleIdx) (d : Dist) (s : State) : (writeRef i d s).fb = s.fb := rfl
@[simp] theorem writeRef_fc (i : SampleIdx) (d : Dist) (s : State) : (writeRef i d s).fc = s.fc := rfl
@[simp] theorem writeRef_phase (i : SampleIdx) (d : Dist) (s : State) : (writeRef i d s).phase = s.phase := rfl
@[simp] theorem writeRef_ref (i : SampleIdx) (d : Dist) (s : State) : (writeRef i d s).ref = s.ref.set i.val d := rfl
@[simp] theorem writeRef_cv (i : SampleIdx) (d : Dist) (s : State) : (writeRef i d s).cv = s.cv := rfl
@[simp] theorem writeRef_cmd (i : SampleIdx) (d : Dist) (s : State) : (writeRef i d s).cmd = s.cmd := rfl
@[simp] theorem writeRef_halted (i : SampleIdx) (d : Dist) (s : State) : (writeRef i d s).halted = s.halted := rfl
@[simp] theorem writeRef_err (i : SampleIdx) (d : Dist) (s : State) : (writeRef i d s).err = s.err := rfl
@[simp] theorem writeRef_ecause (i : SampleIdx) (d : Dist) (s : State) : (writeRef i d s).ecause = s.ecause := rfl
@[simp] theorem writeRef_scratch (i : SampleIdx) (d : Dist) (s : State) : (writeRef i d s).scratch = s.scratch := rfl
@[simp] theorem writeRef_offers (i : SampleIdx) (d : Dist) (s : State) : (writeRef i d s).offers = s.offers := rfl

@[simp] theorem writeSamp_cfg (i : SampleIdx) (v : Sample) (s : State) : (writeSamp i v s).cfg = s.cfg := rfl
@[simp] theorem writeSamp_mp (i : SampleIdx) (v : Sample) (s : State) : (writeSamp i v s).mp = s.mp := rfl
@[simp] theorem writeSamp_pcnt (i : SampleIdx) (v : Sample) (s : State) : (writeSamp i v s).pcnt = s.pcnt := rfl
@[simp] theorem writeSamp_fb (i : SampleIdx) (v : Sample) (s : State) : (writeSamp i v s).fb = s.fb := rfl
@[simp] theorem writeSamp_fc (i : SampleIdx) (v : Sample) (s : State) : (writeSamp i v s).fc = s.fc := rfl
@[simp] theorem writeSamp_phase (i : SampleIdx) (v : Sample) (s : State) : (writeSamp i v s).phase = s.phase := rfl
@[simp] theorem writeSamp_ref (i : SampleIdx) (v : Sample) (s : State) : (writeSamp i v s).ref = s.ref := rfl
@[simp] theorem writeSamp_cv (i : SampleIdx) (v : Sample) (s : State) : (writeSamp i v s).cv = s.cv := rfl
@[simp] theorem writeSamp_cmd (i : SampleIdx) (v : Sample) (s : State) : (writeSamp i v s).cmd = s.cmd := rfl
@[simp] theorem writeSamp_halted (i : SampleIdx) (v : Sample) (s : State) : (writeSamp i v s).halted = s.halted := rfl
@[simp] theorem writeSamp_err (i : SampleIdx) (v : Sample) (s : State) : (writeSamp i v s).err = s.err := rfl
@[simp] theorem writeSamp_ecause (i : SampleIdx) (v : Sample) (s : State) : (writeSamp i v s).ecause = s.ecause := rfl
@[simp] theorem writeSamp_scratch (i : SampleIdx) (v : Sample) (s : State) : (writeSamp i v s).scratch = { s.scratch with samp := s.scratch.samp.set i.val v } := rfl
@[simp] theorem writeSamp_offers (i : SampleIdx) (v : Sample) (s : State) : (writeSamp i v s).offers = s.offers := rfl

@[simp] theorem writeProj_cfg (i : SampleIdx) (d : Dist) (s : State) : (writeProj i d s).cfg = s.cfg := rfl
@[simp] theorem writeProj_mp (i : SampleIdx) (d : Dist) (s : State) : (writeProj i d s).mp = s.mp := rfl
@[simp] theorem writeProj_pcnt (i : SampleIdx) (d : Dist) (s : State) : (writeProj i d s).pcnt = s.pcnt := rfl
@[simp] theorem writeProj_fb (i : SampleIdx) (d : Dist) (s : State) : (writeProj i d s).fb = s.fb := rfl
@[simp] theorem writeProj_fc (i : SampleIdx) (d : Dist) (s : State) : (writeProj i d s).fc = s.fc := rfl
@[simp] theorem writeProj_phase (i : SampleIdx) (d : Dist) (s : State) : (writeProj i d s).phase = s.phase := rfl
@[simp] theorem writeProj_ref (i : SampleIdx) (d : Dist) (s : State) : (writeProj i d s).ref = s.ref := rfl
@[simp] theorem writeProj_cv (i : SampleIdx) (d : Dist) (s : State) : (writeProj i d s).cv = s.cv := rfl
@[simp] theorem writeProj_cmd (i : SampleIdx) (d : Dist) (s : State) : (writeProj i d s).cmd = s.cmd := rfl
@[simp] theorem writeProj_halted (i : SampleIdx) (d : Dist) (s : State) : (writeProj i d s).halted = s.halted := rfl
@[simp] theorem writeProj_err (i : SampleIdx) (d : Dist) (s : State) : (writeProj i d s).err = s.err := rfl
@[simp] theorem writeProj_ecause (i : SampleIdx) (d : Dist) (s : State) : (writeProj i d s).ecause = s.ecause := rfl
@[simp] theorem writeProj_scratch (i : SampleIdx) (d : Dist) (s : State) : (writeProj i d s).scratch = { s.scratch with proj := s.scratch.proj.set i.val d } := rfl
@[simp] theorem writeProj_offers (i : SampleIdx) (d : Dist) (s : State) : (writeProj i d s).offers = s.offers := rfl

@[simp] theorem writeQual_cfg (i : SampleIdx) (q : Bool) (s : State) : (writeQual i q s).cfg = s.cfg := rfl
@[simp] theorem writeQual_mp (i : SampleIdx) (q : Bool) (s : State) : (writeQual i q s).mp = s.mp := rfl
@[simp] theorem writeQual_pcnt (i : SampleIdx) (q : Bool) (s : State) : (writeQual i q s).pcnt = s.pcnt := rfl
@[simp] theorem writeQual_fb (i : SampleIdx) (q : Bool) (s : State) : (writeQual i q s).fb = s.fb := rfl
@[simp] theorem writeQual_fc (i : SampleIdx) (q : Bool) (s : State) : (writeQual i q s).fc = s.fc := rfl
@[simp] theorem writeQual_phase (i : SampleIdx) (q : Bool) (s : State) : (writeQual i q s).phase = s.phase := rfl
@[simp] theorem writeQual_ref (i : SampleIdx) (q : Bool) (s : State) : (writeQual i q s).ref = s.ref := rfl
@[simp] theorem writeQual_cv (i : SampleIdx) (q : Bool) (s : State) : (writeQual i q s).cv = s.cv := rfl
@[simp] theorem writeQual_cmd (i : SampleIdx) (q : Bool) (s : State) : (writeQual i q s).cmd = s.cmd := rfl
@[simp] theorem writeQual_halted (i : SampleIdx) (q : Bool) (s : State) : (writeQual i q s).halted = s.halted := rfl
@[simp] theorem writeQual_err (i : SampleIdx) (q : Bool) (s : State) : (writeQual i q s).err = s.err := rfl
@[simp] theorem writeQual_ecause (i : SampleIdx) (q : Bool) (s : State) : (writeQual i q s).ecause = s.ecause := rfl
@[simp] theorem writeQual_scratch (i : SampleIdx) (q : Bool) (s : State) : (writeQual i q s).scratch = { s.scratch with qual := s.scratch.qual.set i.val q } := rfl
@[simp] theorem writeQual_offers (i : SampleIdx) (q : Bool) (s : State) : (writeQual i q s).offers = s.offers := rfl

@[simp] theorem raise_cfg (e : ErrorKind) (c : BitVec 2) (s : State) : (raise e c s).cfg = s.cfg := rfl
@[simp] theorem raise_mp (e : ErrorKind) (c : BitVec 2) (s : State) : (raise e c s).mp = s.mp := rfl
@[simp] theorem raise_pcnt (e : ErrorKind) (c : BitVec 2) (s : State) : (raise e c s).pcnt = s.pcnt := rfl
@[simp] theorem raise_fb (e : ErrorKind) (c : BitVec 2) (s : State) : (raise e c s).fb = s.fb := rfl
@[simp] theorem raise_fc (e : ErrorKind) (c : BitVec 2) (s : State) : (raise e c s).fc = s.fc := rfl
@[simp] theorem raise_phase (e : ErrorKind) (c : BitVec 2) (s : State) : (raise e c s).phase = s.phase := rfl
@[simp] theorem raise_ref (e : ErrorKind) (c : BitVec 2) (s : State) : (raise e c s).ref = s.ref := rfl
@[simp] theorem raise_cv (e : ErrorKind) (c : BitVec 2) (s : State) : (raise e c s).cv = s.cv := rfl
@[simp] theorem raise_cmd (e : ErrorKind) (c : BitVec 2) (s : State) : (raise e c s).cmd = s.cmd := rfl
@[simp] theorem raise_halted (e : ErrorKind) (c : BitVec 2) (s : State) : (raise e c s).halted = true := rfl
@[simp] theorem raise_err (e : ErrorKind) (c : BitVec 2) (s : State) : (raise e c s).err = e.code := rfl
@[simp] theorem raise_ecause (e : ErrorKind) (c : BitVec 2) (s : State) : (raise e c s).ecause = c := rfl
@[simp] theorem raise_scratch (e : ErrorKind) (c : BitVec 2) (s : State) : (raise e c s).scratch = s.scratch := rfl
@[simp] theorem raise_offers (e : ErrorKind) (c : BitVec 2) (s : State) : (raise e c s).offers = s.offers := rfl

@[simp] theorem emit_cfg (c : Byte) (s : State) : (emit c s).cfg = s.cfg := rfl
@[simp] theorem emit_mp (c : Byte) (s : State) : (emit c s).mp = s.mp := rfl
@[simp] theorem emit_pcnt (c : Byte) (s : State) : (emit c s).pcnt = s.pcnt := rfl
@[simp] theorem emit_fb (c : Byte) (s : State) : (emit c s).fb = s.fb := rfl
@[simp] theorem emit_fc (c : Byte) (s : State) : (emit c s).fc = s.fc := rfl
@[simp] theorem emit_phase (c : Byte) (s : State) : (emit c s).phase = s.phase := rfl
@[simp] theorem emit_ref (c : Byte) (s : State) : (emit c s).ref = s.ref := rfl
@[simp] theorem emit_cv (c : Byte) (s : State) : (emit c s).cv = true := rfl
@[simp] theorem emit_cmd (c : Byte) (s : State) : (emit c s).cmd = c := rfl
@[simp] theorem emit_halted (c : Byte) (s : State) : (emit c s).halted = s.halted := rfl
@[simp] theorem emit_err (c : Byte) (s : State) : (emit c s).err = s.err := rfl
@[simp] theorem emit_ecause (c : Byte) (s : State) : (emit c s).ecause = s.ecause := rfl
@[simp] theorem emit_scratch (c : Byte) (s : State) : (emit c s).scratch = s.scratch := rfl
@[simp] theorem emit_offers (c : Byte) (s : State) : (emit c s).offers = s.offers := rfl

@[simp] theorem resetState_cfg (s : State) : (resetState s).cfg = s.cfg := rfl
@[simp] theorem resetState_mp (s : State) : (resetState s).mp = 0 := rfl
@[simp] theorem resetState_pcnt (s : State) : (resetState s).pcnt = 0 := rfl
@[simp] theorem resetState_fb (s : State) : (resetState s).fb = s.fb := rfl
@[simp] theorem resetState_fc (s : State) : (resetState s).fc = 0 := rfl
@[simp] theorem resetState_phase (s : State) : (resetState s).phase = .warmingUp := rfl
@[simp] theorem resetState_ref (s : State) : (resetState s).ref = Vector.replicate 98 infDist := rfl
@[simp] theorem resetState_cv (s : State) : (resetState s).cv = false := rfl
@[simp] theorem resetState_cmd (s : State) : (resetState s).cmd = 0x00 := rfl
@[simp] theorem resetState_halted (s : State) : (resetState s).halted = false := rfl
@[simp] theorem resetState_err (s : State) : (resetState s).err = 0 := rfl
@[simp] theorem resetState_ecause (s : State) : (resetState s).ecause = 0 := rfl
@[simp] theorem resetState_scratch (s : State) : (resetState s).scratch = Scratch.clear := rfl
@[simp] theorem resetState_offers (s : State) : (resetState s).offers = s.offers := rfl

@[simp] theorem countFrame_cfg (s : State) : (countFrame s).cfg = s.cfg := rfl
@[simp] theorem countFrame_mp (s : State) : (countFrame s).mp = s.mp := rfl
@[simp] theorem countFrame_pcnt (s : State) : (countFrame s).pcnt = s.pcnt := rfl
@[simp] theorem countFrame_fb (s : State) : (countFrame s).fb = s.fb := rfl
@[simp] theorem countFrame_fc (s : State) : (countFrame s).fc = s.fc + 1 := rfl
@[simp] theorem countFrame_phase (s : State) : (countFrame s).phase = s.phase := rfl
@[simp] theorem countFrame_ref (s : State) : (countFrame s).ref = s.ref := rfl
@[simp] theorem countFrame_cv (s : State) : (countFrame s).cv = s.cv := rfl
@[simp] theorem countFrame_cmd (s : State) : (countFrame s).cmd = s.cmd := rfl
@[simp] theorem countFrame_halted (s : State) : (countFrame s).halted = s.halted := rfl
@[simp] theorem countFrame_err (s : State) : (countFrame s).err = s.err := rfl
@[simp] theorem countFrame_ecause (s : State) : (countFrame s).ecause = s.ecause := rfl
@[simp] theorem countFrame_scratch (s : State) : (countFrame s).scratch = s.scratch := rfl
@[simp] theorem countFrame_offers (s : State) : (countFrame s).offers = s.offers := rfl

@[simp] theorem dropTransients_cfg (s : State) : (dropTransients s).cfg = s.cfg := rfl
@[simp] theorem dropTransients_mp (s : State) : (dropTransients s).mp = s.mp := rfl
@[simp] theorem dropTransients_pcnt (s : State) : (dropTransients s).pcnt = s.pcnt := rfl
@[simp] theorem dropTransients_fb (s : State) : (dropTransients s).fb = s.fb := rfl
@[simp] theorem dropTransients_fc (s : State) : (dropTransients s).fc = s.fc := rfl
@[simp] theorem dropTransients_phase (s : State) : (dropTransients s).phase = s.phase := rfl
@[simp] theorem dropTransients_ref (s : State) : (dropTransients s).ref = s.ref := rfl
@[simp] theorem dropTransients_cv (s : State) : (dropTransients s).cv = s.cv := rfl
@[simp] theorem dropTransients_cmd (s : State) : (dropTransients s).cmd = s.cmd := rfl
@[simp] theorem dropTransients_halted (s : State) : (dropTransients s).halted = s.halted := rfl
@[simp] theorem dropTransients_err (s : State) : (dropTransients s).err = s.err := rfl
@[simp] theorem dropTransients_ecause (s : State) : (dropTransients s).ecause = s.ecause := rfl
@[simp] theorem dropTransients_scratch (s : State) : (dropTransients s).scratch = Scratch.clear := rfl
@[simp] theorem dropTransients_offers (s : State) : (dropTransients s).offers = s.offers := rfl

@[simp] theorem completeFrame_cfg (b : Byte) (s : State) : (completeFrame b s).cfg = s.cfg := rfl
@[simp] theorem completeFrame_mp (b : Byte) (s : State) : (completeFrame b s).mp = 0 := rfl
@[simp] theorem completeFrame_pcnt (b : Byte) (s : State) : (completeFrame b s).pcnt = 0 := rfl
@[simp] theorem completeFrame_fb (b : Byte) (s : State) : (completeFrame b s).fb = Memory.store s.fb 195 b := rfl
@[simp] theorem completeFrame_fc (b : Byte) (s : State) : (completeFrame b s).fc = s.fc := rfl
@[simp] theorem completeFrame_phase (b : Byte) (s : State) : (completeFrame b s).phase = s.phase := rfl
@[simp] theorem completeFrame_ref (b : Byte) (s : State) : (completeFrame b s).ref = s.ref := rfl
@[simp] theorem completeFrame_cv (b : Byte) (s : State) : (completeFrame b s).cv = s.cv := rfl
@[simp] theorem completeFrame_cmd (b : Byte) (s : State) : (completeFrame b s).cmd = s.cmd := rfl
@[simp] theorem completeFrame_halted (b : Byte) (s : State) : (completeFrame b s).halted = s.halted := rfl
@[simp] theorem completeFrame_err (b : Byte) (s : State) : (completeFrame b s).err = s.err := rfl
@[simp] theorem completeFrame_ecause (b : Byte) (s : State) : (completeFrame b s).ecause = s.ecause := rfl
@[simp] theorem completeFrame_scratch (b : Byte) (s : State) : (completeFrame b s).scratch = s.scratch := rfl
@[simp] theorem completeFrame_offers (b : Byte) (s : State) : (completeFrame b s).offers = s.offers := rfl

end Sys2Proof.Machine
end

