-- ==== Sys2Proof/Laws/Loop.lean ====
section
/-! SUPPORT. The loop over the sample indices: one induction for all of them, and what each stage's loop computes. -/

namespace Sys2Proof.Machine

theorem foldl_ofFn_invariant {n : Nat} (f : SampleIdx → State → State) (P : Nat → State → Prop) (g : Fin n → SampleIdx)
    (hstep : ∀ (k : Nat) (h : k < n) (t : State), P k t → P (k + 1) (f (g ⟨k, h⟩) t)) (s : State) (h0 : P 0 s) :
    P n ((List.ofFn g).foldl (fun t i => f i t) s) := by
  induction n with
  | zero => simpa using h0
  | succ n ih =>
    rw [List.ofFn_succ', List.concat_eq_append, List.foldl_append]
    exact hstep n (Nat.lt_succ_self n) _ (ih (fun i => g i.castSucc) (fun k h t => hstep k (Nat.lt_succ_of_lt h) t))

/-- The loop's one induction: what holds before index 0 and is carried from index `k` to `k + 1` holds after the loop. -/
theorem forIdx_invariant {f : SampleIdx → State → State} (P : Nat → State → Prop) {s : State} (h0 : P 0 s)
    (hstep : ∀ (i : SampleIdx) (t : State), P i.val t → P (i.val + 1) (f i t)) : P 98 (forIdx f s) := by
  have h := foldl_ofFn_invariant (n := 98) f P id (fun k h t => hstep ⟨k, h⟩ t) s h0
  simpa [forIdx, List.finRange] using h

/-- The vector after the first `k` entries have been replaced by `g`. -/
def filled {α : Type} (v : Vector α 98) (g : SampleIdx → α) (k : Nat) : Vector α 98 :=
  Vector.ofFn fun i => if i.val < k then g i else v[i.val]

theorem filled_zero {α : Type} (v : Vector α 98) (g : SampleIdx → α) : filled v g 0 = v := by
  ext i hi; simp [filled]

theorem filled_all {α : Type} (v : Vector α 98) (g : SampleIdx → α) : filled v g 98 = Vector.ofFn g := by
  ext i hi; simp [filled]

theorem filled_get {α : Type} (v : Vector α 98) (g : SampleIdx → α) (i : SampleIdx) :
    (filled v g i.val)[i.val] = v[i.val] := by
  simp [filled]

theorem filled_succ {α : Type} (v : Vector α 98) (g : SampleIdx → α) (i : SampleIdx) :
    (filled v g i.val).set i.val (g i) = filled v g (i.val + 1) := by
  ext j hj
  simp only [filled, Vector.getElem_set, Vector.getElem_ofFn]
  by_cases h : i.val = j
  · subst h; simp
  · have h1 : j < i.val ↔ j < i.val + 1 := by omega
    simp [h, h1]

/-- DEC.SAMPLE for all `i`: the sample vector of the frame buffer, nothing else changed. -/
theorem forIdx_decSample (s : State) : forIdx decSample s =
    { s with scratch := { s.scratch with samp := Vector.ofFn fun i => sampleOfPair (readPair s i) } } := by
  rw [← filled_all s.scratch.samp]
  refine forIdx_invariant (fun k t => t = { s with scratch := { s.scratch with
    samp := filled s.scratch.samp (fun i => sampleOfPair (readPair s i)) k } }) (by rw [filled_zero]) ?_
  rintro i t rfl
  rw [← filled_succ]
  simp only [decSample, writeSamp, readPair, readByte]

/-- PRJ.PROJECT for all `i`: the projected vector of the sample vector, nothing else changed. -/
theorem forIdx_prjProject (s : State) : forIdx prjProject s =
    { s with scratch := { s.scratch with proj := Vector.ofFn fun i => project s.scratch.samp[i.val] i } } := by
  rw [← filled_all s.scratch.proj]
  refine forIdx_invariant (fun k t => t = { s with scratch := { s.scratch with
    proj := filled s.scratch.proj (fun i => project s.scratch.samp[i.val] i) k } }) (by rw [filled_zero]) ?_
  rintro i t rfl
  rw [← filled_succ]
  rfl

/-- CAL.MIN for all `i`: the baseline lowered to the frame's distances, nothing else changed. -/
theorem forIdx_calMin (s : State) : forIdx calMin s =
    { s with ref := Vector.ofFn fun i => minDist s.ref[i.val] s.scratch.proj[i.val] } := by
  rw [← filled_all s.ref]
  refine forIdx_invariant (fun k t => t = { s with
    ref := filled s.ref (fun i => minDist s.ref[i.val] s.scratch.proj[i.val]) k }) (by rw [filled_zero]) ?_
  rintro i t rfl
  rw [← filled_succ]
  simp only [calMin, writeRef, filled_get]

/-- CAL.FIN for all `i`: the baseline finalised and the block armed, nothing else changed. -/
theorem forIdx_calFin (s : State) : forIdx calFin s =
    { s with ref := Vector.ofFn fun i => finalise s.cfg s.ref[i.val], phase := .armed } := by
  rw [← filled_all s.ref]
  have h := forIdx_invariant (f := calFin) (s := s) (fun k t => t = { s with
    ref := filled s.ref (fun i => finalise s.cfg s.ref[i.val]) k, phase := if k = 98 then .armed else s.phase })
    (by simp [filled_zero]) ?_
  · simpa using h
  · rintro i t rfl
    rw [← filled_succ]
    have hi : (i.val = 98) = False := by simp; omega
    simp only [calFin, writeRef, filled_get, hi, if_false]
    by_cases h : i = 97
    · subst h; simp
    · have h' : ¬ i.val + 1 = 98 := fun e => h (Fin.ext (by simpa using e))
      simp [h, h']

/-- SEL.QUAL for all `i`: the qualifying mask, nothing else changed. -/
theorem forIdx_selQual (s : State) : forIdx selQual s =
    { s with scratch := { s.scratch with
      qual := Vector.ofFn fun i => qualifies s.cfg s.scratch.proj[i.val] s.ref[i.val] } } := by
  rw [← filled_all s.scratch.qual]
  refine forIdx_invariant (fun k t => t = { s with scratch := { s.scratch with
    qual := filled s.scratch.qual (fun i => qualifies s.cfg s.scratch.proj[i.val] s.ref[i.val]) k } })
    (by rw [filled_zero]) ?_
  rintro i t rfl
  rw [← filled_succ]
  rfl

/-- What the arg-min has found after the first `k` indices: nothing below `INF` and index 0, or the least candidate and
its first index. -/
def nearestOf (c : SampleIdx → Dist) (k : Nat) (best : Dist) (idx : SampleIdx) : Prop :=
  (∀ i : SampleIdx, i.val < k → best ≤ c i) ∧
    ((best = infDist ∧ idx = 0) ∨
      (best < infDist ∧ c idx = best ∧ idx.val < k ∧ ∀ i : SampleIdx, i < idx → best < c i))

/-- SEL.ARGMIN: only `best` and `idx` change, and they are the nearest candidate's. -/
theorem selArgmin_spec (s : State) : ∃ best idx,
    selArgmin s = { s with scratch := { s.scratch with best := best, idx := idx } } ∧
      nearestOf (candidate s) 98 best idx := by
  refine forIdx_invariant (fun k t => ∃ best idx,
    t = { s with scratch := { s.scratch with best := best, idx := idx } } ∧ nearestOf (candidate s) k best idx)
    ⟨infDist, 0, rfl, fun i h => absurd h (Nat.not_lt_zero _), .inl ⟨rfl, rfl⟩⟩ ?_
  rintro i t ⟨best, idx, rfl, hmin, hcase⟩
  have hcand : candidate { s with scratch := { s.scratch with best := best, idx := idx } } i = candidate s i := rfl
  simp only [argminTurn, hcand]
  by_cases hlt : candidate s i < best
  · simp only [hlt, if_true]
    refine ⟨candidate s i, i, rfl, fun j hj => ?_, .inr ⟨?_, rfl, Nat.lt_succ_self _, fun j hj => ?_⟩⟩
    · rcases Nat.lt_succ_iff_lt_or_eq.mp hj with h | h
      · have := hmin j h; simp only [BitVec.lt_def, BitVec.le_def] at *; omega
      · rw [Fin.ext h]; exact BitVec.le_refl _
    · rcases hcase with ⟨h, _⟩ | ⟨h, _⟩
      · rwa [h] at hlt
      · simp only [BitVec.lt_def] at *; omega
    · have := hmin j hj; simp only [BitVec.lt_def, BitVec.le_def] at *; omega
  · simp only [hlt, if_false]
    refine ⟨best, idx, rfl, fun j hj => ?_, ?_⟩
    · rcases Nat.lt_succ_iff_lt_or_eq.mp hj with h | h
      · exact hmin j h
      · rw [Fin.ext h]; simp only [BitVec.lt_def, BitVec.le_def] at *; omega
    · rcases hcase with h | ⟨h1, h2, h3, h4⟩
      · exact .inl h
      · exact .inr ⟨h1, h2, by omega, h4⟩

end Sys2Proof.Machine
end

