-- ==== Sys2Proof/Laws/Memory.lean ====
section
/-! SUPPORT. The frame buffer: a read after a write, and the canonical form kept. -/

namespace Sys2Proof.Machine

/-- A write changes no other byte. -/
theorem Memory.lookup_store_other (m : Memory) {a b : Nat} (v : Byte) (h : b ≠ a) :
    (m.store a v).lookup b = m.lookup b := by
  induction m with
  | nil =>
    unfold Memory.store
    split <;> simp [Memory.lookup, Ne.symm h]
  | cons c rest ih =>
    obtain ⟨k, w⟩ := c
    simp only [Memory.store]
    by_cases hlt : k < a
    · simp [hlt, Memory.lookup, ih]
    · by_cases heq : k = a
      · subst heq
        by_cases hv : v = fbUnwritten <;> simp [hv, Memory.lookup, Ne.symm h]
      · by_cases hv : v = fbUnwritten <;> simp [hlt, heq, hv, Memory.lookup, Ne.symm h]

/-- No key below the bound is listed, so it reads as an unwritten byte. -/
theorem Memory.lookup_of_risesFrom (m : Memory) {lo a : Nat} (h : m.risesFrom lo = true) (ha : a < lo) :
    m.lookup a = fbUnwritten := by
  induction m generalizing lo with
  | nil => rfl
  | cons c rest ih =>
    obtain ⟨k, w⟩ := c
    simp only [Memory.risesFrom, Bool.and_eq_true, decide_eq_true_eq] at h
    have hne : k ≠ a := by omega
    simp only [Memory.lookup, hne, if_false]
    exact ih h.2 (by omega)

/-- A byte written is the byte read, in a memory whose keys rise. -/
theorem Memory.lookup_store_same (m : Memory) {lo : Nat} (a : Nat) (v : Byte) (h : m.risesFrom lo = true) :
    (m.store a v).lookup a = v := by
  induction m generalizing lo with
  | nil =>
    unfold Memory.store
    split
    · rename_i hv; rw [hv]; rfl
    · simp [Memory.lookup]
  | cons c rest ih =>
    obtain ⟨k, w⟩ := c
    simp only [Memory.risesFrom, Bool.and_eq_true, decide_eq_true_eq] at h
    simp only [Memory.store]
    by_cases hlt : k < a
    · have hne : k ≠ a := by omega
      simp only [hlt, if_true, Memory.lookup, hne, if_false]
      exact ih h.2
    · by_cases hv : v = fbUnwritten
      · by_cases heq : k = a
        · subst heq
          simp only [hlt, if_false, if_true, hv]
          exact Memory.lookup_of_risesFrom rest h.2 (Nat.lt_succ_self k)
        · simp only [hlt, if_false, heq, hv, if_true, Memory.lookup]
          exact Memory.lookup_of_risesFrom rest h.2 (by omega)
      · simp [hlt, hv, Memory.lookup]

/-- A lower bound of the keys may be lowered. -/
theorem Memory.risesFrom_mono (m : Memory) {lo lo' : Nat} (h : m.risesFrom lo = true) (hle : lo' ≤ lo) :
    m.risesFrom lo' = true := by
  cases m with
  | nil => rfl
  | cons c rest =>
    simp only [Memory.risesFrom, Bool.and_eq_true, decide_eq_true_eq] at h ⊢
    exact ⟨by omega, h.2⟩

/-- A write keeps the keys rising. -/
theorem Memory.risesFrom_store (m : Memory) {lo : Nat} (a : Nat) (v : Byte) (h : m.risesFrom lo = true)
    (hlo : lo ≤ a) : (m.store a v).risesFrom lo = true := by
  induction m generalizing lo with
  | nil =>
    unfold Memory.store
    split <;> simp [Memory.risesFrom, hlo]
  | cons c rest ih =>
    obtain ⟨k, w⟩ := c
    simp only [Memory.risesFrom, Bool.and_eq_true, decide_eq_true_eq] at h
    simp only [Memory.store]
    by_cases hlt : k < a
    · simp only [hlt, if_true, Memory.risesFrom, Bool.and_eq_true, decide_eq_true_eq]
      exact ⟨h.1, ih h.2 (by omega)⟩
    · by_cases heq : k = a
      · subst heq
        by_cases hv : v = fbUnwritten
        · simp only [hlt, if_false, if_true, hv]
          exact Memory.risesFrom_mono rest h.2 (Nat.le_succ_of_le hlo)
        · simp [hv, Memory.risesFrom, hlo, h.2]
      · by_cases hv : v = fbUnwritten
        · simp [hlt, heq, hv, Memory.risesFrom, h]
        · simp only [hlt, if_false, heq, hv, Memory.risesFrom, Bool.and_eq_true, decide_eq_true_eq]
          exact ⟨hlo, by omega, h.2⟩

/-- Every cell after a write is an old cell or the written one, which is not the unwritten byte. -/
theorem Memory.mem_store (m : Memory) (a : Nat) (v : Byte) {c : Host.Cell} (h : c ∈ m.store a v) :
    c ∈ m ∨ (c = (a, v) ∧ v ≠ fbUnwritten) := by
  induction m with
  | nil =>
    unfold Memory.store at h
    split at h
    · simp at h
    · simp only [List.mem_singleton] at h
      exact .inr ⟨h, ‹_›⟩
  | cons d rest ih =>
    obtain ⟨k, w⟩ := d
    simp only [Memory.store] at h
    by_cases hlt : k < a
    · simp only [hlt, if_true, List.mem_cons] at h ⊢
      rcases h with h | h
      · exact .inl (.inl h)
      · rcases ih h with h | h
        · exact .inl (.inr h)
        · exact .inr h
    · by_cases hv : v = fbUnwritten
      · by_cases heq : k = a <;> simp only [hlt, heq, hv, if_true, if_false] at h
        · exact .inl (List.mem_cons_of_mem _ (by simpa using h))
        · exact .inl h
      · by_cases heq : k = a <;> simp only [hlt, heq, hv, if_true, if_false, List.mem_cons] at h ⊢
        · simp only [lt_irrefl, if_false, List.mem_cons] at h
          exact h.elim (fun e => .inr ⟨e, hv⟩) fun e => .inl (.inr e)
        · exact h.elim (fun e => .inr ⟨e, hv⟩) .inl

/-- A write inside `FB` keeps the canonical form. -/
theorem Memory.wf_store (m : Memory) (a : FbAddr) (v : Byte) (h : m.wf = true) : (m.store a.val v).wf = true := by
  simp only [Memory.wf, Bool.and_eq_true, List.all_eq_true, decide_eq_true_eq, bne_iff_ne, ne_eq] at h ⊢
  refine ⟨Memory.risesFrom_store m _ _ h.1 (Nat.zero_le _), fun c hc => ?_⟩
  rcases Memory.mem_store m _ _ hc with hc | ⟨rfl, hv⟩
  · exact h.2 c hc
  · exact ⟨a.isLt, hv⟩

/-- The least key of a memory whose keys rise is read as its own byte, which is listed because it is not the unwritten
one: two canonical memories that read alike are the same list. -/
theorem Memory.ext_of_lookup {m n : Memory} {lo : Nat} (hm : m.risesFrom lo = true) (hn : n.risesFrom lo = true)
    (hmv : ∀ c ∈ m, c.2 ≠ fbUnwritten) (hnv : ∀ c ∈ n, c.2 ≠ fbUnwritten) (h : ∀ a, m.lookup a = n.lookup a) :
    m = n := by
  induction m generalizing n lo with
  | nil =>
    cases n with
    | nil => rfl
    | cons d _ => exact absurd (by simpa [Memory.lookup] using (h d.1).symm) (hnv d (List.mem_cons_self ..))
  | cons c m' ih =>
    cases n with
    | nil => exact absurd (by simpa [Memory.lookup] using h c.1) (hmv c (List.mem_cons_self ..))
    | cons d n' =>
      obtain ⟨k, w⟩ := c
      obtain ⟨l, x⟩ := d
      simp only [Memory.risesFrom, Bool.and_eq_true, decide_eq_true_eq] at hm hn
      have hk : k = l := by
        rcases Nat.lt_trichotomy k l with hkl | hkl | hkl
        · have e := h k
          simp only [Memory.lookup, if_true, hkl.ne', if_false] at e
          rw [Memory.lookup_of_risesFrom n' hn.2 (Nat.lt_succ_of_lt hkl)] at e
          exact absurd e (hmv (k, w) (List.mem_cons_self ..))
        · exact hkl
        · have e := h l
          simp only [Memory.lookup, if_true, hkl.ne', if_false] at e
          rw [Memory.lookup_of_risesFrom m' hm.2 (Nat.lt_succ_of_lt hkl)] at e
          exact absurd e.symm (hnv (l, x) (List.mem_cons_self ..))
      subst hk
      have hw : w = x := by simpa [Memory.lookup] using h k
      subst hw
      rw [ih hm.2 hn.2 (fun c hc => hmv c (List.mem_cons_of_mem _ hc)) (fun c hc => hnv c (List.mem_cons_of_mem _ hc))
        fun a => ?_]
      by_cases ha : k = a
      · subst ha
        rw [Memory.lookup_of_risesFrom m' hm.2 (Nat.lt_succ_self _),
          Memory.lookup_of_risesFrom n' hn.2 (Nat.lt_succ_self _)]
      · simpa [Memory.lookup, ha] using h a

theorem Memory.risesFrom_of_wf {m : Memory} (h : m.wf = true) : m.risesFrom 0 = true := by
  simp only [Memory.wf, Bool.and_eq_true] at h
  exact h.1

/-- The byte a write stores is the byte read there. -/
theorem readByte_writeByte_same (a : FbAddr) (v : Byte) {s : State} (h : s.fb.wf = true) :
    readByte (writeByte a v s) a = v :=
  Memory.lookup_store_same s.fb a.val v (Memory.risesFrom_of_wf h)

/-- A write leaves every other byte of `FB` as it was. -/
theorem readByte_writeByte_other {a b : FbAddr} (v : Byte) (s : State) (h : b ≠ a) :
    readByte (writeByte a v s) b = readByte s b :=
  Memory.lookup_store_other s.fb v fun e => h (Fin.ext e)

/-- Writing keeps the canonical form of the frame buffer. -/
theorem writeByte_wf (a : FbAddr) (v : Byte) {s : State} (h : s.fb.wf = true) : (writeByte a v s).fb.wf = true :=
  Memory.wf_store s.fb a v h

end Sys2Proof.Machine
end

