-- ==== Sys2Proof/Laws/Exec.lean ====
section
/-! SUPPORT. What every meaning is: its condition and its effect, said once; the frame's closed forms. -/

namespace Sys2Proof.Machine

/-- A guarded operation answers a next state exactly where its condition holds. -/
@[simp] theorem whenSelected_next (c : Bool) (t u : State) : whenSelected c t = .next u ↔ c = true ∧ t = u := by
  cases c <;> simp [whenSelected]

@[simp] theorem whenSelected_true (t : State) : whenSelected true t = .next t := rfl

@[simp] theorem whenSelected_false (t : State) : whenSelected false t = .refused .notSelected := rfl

/-- The condition of each meaning, as its definition tests it. -/
def conditionOf : Instr → State → Bool
  | .synSkip b, s => huntingAt 0 s && !continuesSig 0 b
  | .synAdv0, s => huntingAt 0 s
  | .synAdv1, s => huntingAt 1 s
  | .synAdv2, s => huntingAt 2 s
  | .synAdv3, s => huntingAt 3 s
  | .synAdv4, s => huntingAt 4 s
  | .synLock, s => huntingAt 5 s
  | .synDrop b, s => awaitsSource s && s.mp != 0 && s.mp != 6 && !continuesSig s.mp b
  | .payPut _, s => locked s && s.pcnt != 195
  | .payLast _, s => locked s && s.pcnt == 195
  | .decSample _, s => awaitsSource s
  | .prjProject _, s => awaitsSource s
  | .calMin _, s => awaitsSource s && s.phase == .warmingUp
  | .calFin _, s => awaitsSource s && s.phase == .warmingUp && warmupDone s
  | .selQual _, s => selecting s
  | .selArgmin, s => selecting s
  | .selFire, s => selecting s
  | .cmdEmit, s => selecting s
  | .frmDispatch, s => awaitsSource s
  | .snkAck, s => awaitsSink s
  | .errEos, s => awaitsSource s && s.mp == 0
  | .errShort, s => awaitsSource s && s.mp != 0
  | .errIo, s => awaitsSource s
  | .snkFail, s => awaitsSink s
  | .reset, _ => true

/-- The effect of each meaning where its condition holds. -/
def effectOf : Instr → State → State
  | .synSkip _, s => { s with mp := 0 }
  | .synAdv0, s => { s with mp := 1 }
  | .synAdv1, s => { s with mp := 2 }
  | .synAdv2, s => { s with mp := 3 }
  | .synAdv3, s => { s with mp := 4 }
  | .synAdv4, s => { s with mp := 5 }
  | .synLock, s => { s with mp := 6, pcnt := 0 }
  | .synDrop _, s => { s with mp := 0 }
  | .payPut b, s => { writeByte s.pcnt b s with pcnt := nextAddr s.pcnt }
  | .payLast b, s => frmDispatch (completeFrame b s)
  | .decSample i, s => decSample i s
  | .prjProject i, s => prjProject i s
  | .calMin i, s => calMin i s
  | .calFin i, s => calFin i s
  | .selQual i, s => selQual i s
  | .selArgmin, s => selArgmin s
  | .selFire, s => selFire s
  | .cmdEmit, s => cmdEmit s
  | .frmDispatch, s => frmDispatch s
  | .snkAck, s => { s with cv := false }
  | .errEos, s => raise .streamClosed 0 s
  | .errShort, s => raise .ioFailure causeShort s
  | .errIo, s => raise .ioFailure causeRead s
  | .snkFail, s => raise .ioFailure causeWrite { s with cv := false }
  | .reset, s => resetState s

/-- Everything a meaning can do: its effect where its condition holds, the refusal elsewhere. -/
theorem exec_eq (i : Instr) (s : State) : exec i s = whenSelected (conditionOf i s) (effectOf i s) := by
  cases i <;> rfl

/-- The inversion of a meaning that answers a next state. -/
theorem exec_next {i : Instr} {s t : State} (h : exec i s = .next t) : conditionOf i s = true ∧ effectOf i s = t := by
  rwa [exec_eq, whenSelected_next] at h

/-- No meaning ever faults. -/
theorem exec_not_fault (i : Instr) (s : State) (r : Fault) : exec i s ≠ .fault r := nomatch r

/-! ### The frame, in closed form -/

/-- The projected vector of the frame in `FB`. -/
def projOf (s : State) : Vector Dist 98 := Vector.ofFn fun i => project (sampleOfPair (readPair s i)) i

/-- DEC.SAMPLE and PRJ.PROJECT for all `i`. -/
theorem frameProject_eq (s : State) : frameProject s =
    { s with scratch := { s.scratch with
      samp := Vector.ofFn fun i => sampleOfPair (readPair s i), proj := projOf s } } := by
  rw [frameProject, forIdx_decSample, forIdx_prjProject]
  simp [projOf]

/-- While ARMED the calibrator does nothing (43_calibrator.md R159). -/
theorem frameCalibrate_armed {s : State} (h : s.phase = .armed) : frameCalibrate s = s := by
  simp [frameCalibrate, h]

/-- A frame inside the warm-up: the baseline is lowered and the frame counted. -/
theorem frameCalibrate_warmup {s : State} (h : s.phase = .warmingUp) (hfc : (s.fc + 1).toNat ≠ s.cfg.warmupFrames) :
    frameCalibrate s =
      { s with ref := Vector.ofFn fun i => minDist s.ref[i.val] s.scratch.proj[i.val], fc := s.fc + 1 } := by
  simp only [frameCalibrate, h, forIdx_calMin, countFrame, warmupDone, beq_iff_eq, hfc, if_true, if_false]

/-- The frame that ends the warm-up: the lowered baseline is finalised and the block armed. -/
theorem frameCalibrate_arming {s : State} (h : s.phase = .warmingUp) (hfc : (s.fc + 1).toNat = s.cfg.warmupFrames) :
    frameCalibrate s =
      { s with
        ref := Vector.ofFn fun i => finalise s.cfg (minDist s.ref[i.val] s.scratch.proj[i.val])
        fc := s.fc + 1
        phase := .armed } := by
  simp only [frameCalibrate, h, forIdx_calMin, countFrame, warmupDone, beq_iff_eq, hfc, if_true, forIdx_calFin,
    Vector.getElem_ofFn]

/-- While WARMING_UP the selector does nothing. -/
theorem frameSelect_warmingUp {s : State} (h : s.phase = .warmingUp) : frameSelect s = s := by
  simp [frameSelect, h]

/-- Whether index `i` qualifies, from the state before the selector runs. -/
def selQualAt (s : State) (i : SampleIdx) : Bool := qualifies s.cfg s.scratch.proj[i.val] s.ref[i.val]

/-- The candidate value of index `i`, from the state before the selector runs. -/
def selDist (s : State) (i : SampleIdx) : Dist := if selQualAt s i then s.scratch.proj[i.val] else infDist

/-- The state after SEL.QUAL for all `i`. -/
def qualified (s : State) : State := { s with scratch := { s.scratch with qual := Vector.ofFn (selQualAt s) } }

theorem forIdx_selQual_eq (s : State) : forIdx selQual s = qualified s := forIdx_selQual s

theorem candidate_qualified (s : State) : candidate (qualified s) = selDist s := by
  funext i
  simp only [candidate, qualified, selDist, Vector.getElem_ofFn]

/-- The selector's stages: only the transients, `cmd` and `cv` change; the command is the nearest candidate's. -/
theorem frameSelect_armed {s : State} (h : s.phase = .armed) : ∃ (best : Dist) (idx : SampleIdx),
    frameSelect s = { s with
      scratch := { s.scratch with
        qual := Vector.ofFn (selQualAt s)
        best := best
        idx := idx
        fire := selQualAt s idx }
      cmd := encodeCommand idx (selQualAt s idx)
      cv := true } ∧
    nearestOf (selDist s) 98 best idx := by
  obtain ⟨best, idx, heq, hnear⟩ := selArgmin_spec (qualified s)
  rw [candidate_qualified] at hnear
  refine ⟨best, idx, ?_, hnear⟩
  rw [frameSelect, if_pos h, forIdx_selQual_eq, heq]
  simp only [selFire, cmdEmit, emit, qualified, Vector.getElem_ofFn]

/-- What a frame leaves unchanged, whichever row of 30_encoding.md R88 it falls under. -/
theorem frmDispatch_frame (s : State) : frmDispatch s = { s with
    fc := (frmDispatch s).fc
    phase := (frmDispatch s).phase
    ref := (frmDispatch s).ref
    cv := (frmDispatch s).cv
    cmd := (frmDispatch s).cmd
    scratch := Scratch.clear } := by
  have project : ∀ t, frameProject t = { t with scratch := (frameProject t).scratch } := fun t => by
    rw [frameProject_eq]
  have calibrate : ∀ t, frameCalibrate t =
      { t with fc := (frameCalibrate t).fc, phase := (frameCalibrate t).phase, ref := (frameCalibrate t).ref } := by
    intro t
    cases h : t.phase
    · by_cases hfc : (t.fc + 1).toNat = t.cfg.warmupFrames
      · rw [frameCalibrate_arming h hfc]
      · rw [frameCalibrate_warmup h hfc]
    · rw [frameCalibrate_armed h]
  have select : ∀ t, frameSelect t =
      { t with scratch := (frameSelect t).scratch, cmd := (frameSelect t).cmd, cv := (frameSelect t).cv } := by
    intro t
    cases h : t.phase
    · rw [frameSelect_warmingUp h, ← h]
    · obtain ⟨best, idx, heq, -⟩ := frameSelect_armed h
      rw [heq, ← h]
  rw [frmDispatch, dropTransients, select, calibrate, project]

end Sys2Proof.Machine
end

