-- ==== Sys2Proof/Laws/PerInstr.lean ====
section
/-! SUPPORT. Statements about every operation as syntax, one lemma per constructor: the encoder's answer is a selection
at which the synchronizer is in a state of its own (spec/10_state.md R37 item 1), and the decoder accepts it. -/

namespace Sys2Proof

/-- The sequencing registers a selection names agree with 10_state.md R37: `pcnt = 0` while hunting. -/
def Selection.consistent : Selection → Prop
  | .event mp pcnt _ => mp ≠ 6 → pcnt = 0
  | .stage _ place => place < 494

namespace Laws.EncodeConsistent

/-- The encoder never names sequencing registers that no run reaches, nor a stage no frame has. -/
def Statement (i : Instr) : Prop := (encode i).consistent

theorem synSkip (b : Byte) : Statement (.synSkip b) := fun _ => rfl
theorem synAdv0 : Statement .synAdv0 := fun _ => rfl
theorem synAdv1 : Statement .synAdv1 := fun _ => rfl
theorem synAdv2 : Statement .synAdv2 := fun _ => rfl
theorem synAdv3 : Statement .synAdv3 := fun _ => rfl
theorem synAdv4 : Statement .synAdv4 := fun _ => rfl
theorem synLock : Statement .synLock := fun _ => rfl
theorem synDrop (b : Byte) : Statement (.synDrop b) := fun _ => rfl
theorem payPut (b : Byte) : Statement (.payPut b) := fun _ => rfl
theorem payLast (b : Byte) : Statement (.payLast b) := fun h => absurd rfl h
theorem decSample (i : SampleIdx) : Statement (.decSample i) := by
  simp only [Statement, encode, Selection.consistent]; omega
theorem cmdEmit : Statement .cmdEmit := by simp [Statement, encode, Selection.consistent]
theorem prjProject (i : SampleIdx) : Statement (.prjProject i) := by
  simp only [Statement, encode, Selection.consistent]; omega
theorem calMin (i : SampleIdx) : Statement (.calMin i) := by
  simp only [Statement, encode, Selection.consistent]; omega
theorem calFin (i : SampleIdx) : Statement (.calFin i) := by
  simp only [Statement, encode, Selection.consistent]; omega
theorem selQual (i : SampleIdx) : Statement (.selQual i) := by
  simp only [Statement, encode, Selection.consistent]; omega
theorem selArgmin : Statement .selArgmin := by simp [Statement, encode, Selection.consistent]
theorem selFire : Statement .selFire := by simp [Statement, encode, Selection.consistent]
theorem frmDispatch : Statement .frmDispatch := by simp [Statement, encode, Selection.consistent]
theorem snkAck : Statement .snkAck := fun _ => rfl
theorem errEos : Statement .errEos := fun _ => rfl
theorem errShort : Statement .errShort := fun _ => rfl
theorem errIo : Statement .errIo := fun _ => rfl
theorem snkFail : Statement .snkFail := fun _ => rfl
theorem reset : Statement .reset := fun _ => rfl

end Laws.EncodeConsistent

end Sys2Proof
end

