-- ==== Sys2Proof/Laws/Step.lean ====
section
/-! SUPPORT. What a step can do, said once: it waits, or it consumes the oldest admitted offer. -/

namespace Sys2Proof.Machine

/-- Nothing is taken exactly when no offer is admitted. -/
theorem takeAdmitted_none {p : InEvent → Bool} {l : List InEvent} :
    takeAdmitted p l = none ↔ ∀ e ∈ l, p e = false := by
  induction l with
  | nil => simp [takeAdmitted]
  | cons e rest ih =>
    cases hp : p e
    · cases ht : takeAdmitted p rest with
      | none => simpa [takeAdmitted, hp, ht] using ih.mp ht
      | some r =>
        simp only [takeAdmitted, hp, ht, List.mem_cons, forall_eq_or_imp, true_and]
        rw [ht] at ih
        simpa using ih
    · simp [takeAdmitted, hp]

/-- What is taken is admitted, and every older offer is not and stays in its place. -/
theorem takeAdmitted_some {p : InEvent → Bool} {l : List InEvent} {e : InEvent} {rest : List InEvent}
    (h : takeAdmitted p l = some (e, rest)) : p e = true ∧ ∃ before after,
      l = before ++ e :: after ∧ rest = before ++ after ∧ ∀ x ∈ before, p x = false := by
  induction l generalizing rest with
  | nil => simp [takeAdmitted] at h
  | cons d tail ih =>
    cases hp : p d
    · cases ht : takeAdmitted p tail with
      | none => simp [takeAdmitted, hp, ht] at h
      | some r =>
        obtain ⟨x, left⟩ := r
        simp only [takeAdmitted, hp, ht, Bool.false_eq_true, if_false, Option.some.injEq, Prod.mk.injEq] at h
        obtain ⟨rfl, rfl⟩ := h
        obtain ⟨hx, before, after, rfl, rfl, hall⟩ := ih ht
        exact ⟨hx, d :: before, after, rfl, rfl, by simpa [hp] using hall⟩
    · simp only [takeAdmitted, hp, if_true, Option.some.injEq, Prod.mk.injEq] at h
      obtain ⟨rfl, rfl⟩ := h
      exact ⟨hp, [], tail, rfl, rfl, by simp⟩

/-- Admission looks at `halted` and `cv` only. -/
@[simp] theorem admit_offers (s : State) (l : List InEvent) (e : InEvent) :
    admits { s with offers := l } e = admits s e := by
  cases e <;> rfl

/-- The step's two cases: the block waits, or it runs the operation that the oldest admitted offer selects. -/
theorem step_cases (s : State) :
    ((∀ e ∈ s.offers, admits s e = false) ∧ step s = .next s) ∨
    ∃ e before after, s.offers = before ++ e :: after ∧ (∀ x ∈ before, admits s x = false) ∧ admits s e = true ∧
      step s = exec (selectEvent s.mp s.pcnt e) { s with offers := before ++ after } := by
  cases h : nextOffer s with
  | none => exact .inl ⟨takeAdmitted_none.mp h, by simp [step, h]⟩
  | some r =>
    obtain ⟨e, rest⟩ := r
    obtain ⟨he, before, after, hl, rfl, hall⟩ := takeAdmitted_some h
    exact .inr ⟨e, before, after, hl, hall, he, by simp [step, h, eventStep, he]⟩

/-- An admitted event runs the operation it selects. -/
theorem eventStep_admitted {s : State} {e : InEvent} (h : admits s e = true) :
    eventStep s e = exec (selectEvent s.mp s.pcnt e) s := by
  simp [eventStep, h]

/-- An event that is not admitted changes nothing. -/
theorem eventStep_held {s : State} {e : InEvent} (h : admits s e = false) : eventStep s e = .next s := by
  simp [eventStep, h]

end Sys2Proof.Machine
end

