-- ==== Sys2Proof/Laws/Run.lean ====
section
/-! SUPPORT. Runs and programs: one event, the pieces of a program, and `run_bytes` as the program with its implied
acknowledgements. -/

namespace Sys2Proof.Machine

theorem advance_of_eventStep {s t : State} {e : InEvent} (h : eventStep s e = .next t) : advance s e = t := by
  simp [advance, h]

/-- An event that is not admitted changes nothing (45_pipeline.md R197). -/
theorem advance_held {s : State} {e : InEvent} (h : admits s e = false) : advance s e = s :=
  advance_of_eventStep (eventStep_held h)

@[simp] theorem eventRun_nil (s : State) : eventRun s [] = s := rfl
@[simp] theorem eventRun_cons (s : State) (e : InEvent) (es : List InEvent) :
    eventRun s (e :: es) = eventRun (advance s e) es := rfl
@[simp] theorem runOutput_nil (s : State) : runOutput s [] = [] := rfl
@[simp] theorem runOutput_cons (s : State) (e : InEvent) (es : List InEvent) :
    runOutput s (e :: es) = eventOutput s e ++ runOutput (advance s e) es := rfl
@[simp] theorem runProgram_commands (s : State) (es : List InEvent) : (runProgram s es).commands = runOutput s es := rfl
@[simp] theorem runProgram_final (s : State) (es : List InEvent) : (runProgram s es).final = eventRun s es := rfl

/-- A program in two pieces ends where the second ends, started where the first ends. -/
theorem eventRun_append (s : State) (es fs : List InEvent) : eventRun s (es ++ fs) = eventRun (eventRun s es) fs := by
  induction es generalizing s with
  | nil => rfl
  | cons e es ih => simp [ih]

/-- The output of a program in two pieces. -/
theorem runOutput_append (s : State) (es fs : List InEvent) :
    runOutput s (es ++ fs) = runOutput s es ++ runOutput (eventRun s es) fs := by
  induction es generalizing s with
  | nil => rfl
  | cons e es ih => simp [ih]

/-- An event while a command is pending adds nothing to the output. -/
theorem eventOutput_pending {s : State} (e : InEvent) (h : s.cv = true) : eventOutput s e = [] := by
  simp [eventOutput, h]

/-- A byte never moves `halted`. -/
theorem advance_byte_halted (s : State) (b : Byte) : (advance s (.byte b)).halted = s.halted := by
  cases ha : admits s (.byte b) with
  | false => rw [advance_held ha]
  | true =>
    rw [advance, eventStep_admitted ha, exec_eq]
    have effect : (effectOf (selectByte s.mp s.pcnt b) s).halted = s.halted := by
      unfold selectByte advanceAt
      repeat' split
      all_goals first
        | rfl
        | (show (frmDispatch (completeFrame b s)).halted = s.halted
           rw [frmDispatch_frame]
           rfl)
    rw [selectEvent]
    cases conditionOf (selectByte s.mp s.pcnt b) s
    · rfl
    · exact effect

/-- The sink's acknowledgement of a pending command (45_pipeline.md R204). -/
theorem advance_sinkAck {s : State} (hh : s.halted = false) (hc : s.cv = true) :
    advance s .sinkAck = { s with cv := false } := by
  apply advance_of_eventStep
  have ha : admits s .sinkAck = true := by simp [admits, awaitsSink, hh, hc]
  rw [eventStep_admitted ha, selectEvent, exec_eq]
  simp [conditionOf, effectOf, awaitsSink, hh, hc]

/-- `run_bytes` is the program of the bytes with the implied acknowledgements, where it is defined
(45_pipeline.md R199; 30_encoding.md R94). -/
theorem runBytes_eq_runProgram (s : State) (bs : List Byte) (hh : s.halted = false) (hc : s.cv = false) :
    runBytes s bs =
      ((runProgram s (withAcks s (bs.map .byte))).final, (runProgram s (withAcks s (bs.map .byte))).commands) := by
  induction bs generalizing s with
  | nil => rfl
  | cons b bs ih =>
    have halted : (advance s (.byte b)).halted = false := (advance_byte_halted s b).trans hh
    cases hv : (advance s (.byte b)).cv with
    | false =>
      simpa [runBytes, withAcks, eventOutput, hc, hv] using ih _ halted hv
    | true =>
      have ack := advance_sinkAck halted hv
      have := ih (advance (advance s (.byte b)) .sinkAck) (by rw [ack]; exact halted) (by rw [ack])
      simpa [runBytes, withAcks, eventOutput, hc, hv, Prod.ext_iff] using this

end Sys2Proof.Machine
end

