-- ==== Sys2Proof/Tests/Slice0.lean ====
section
/-! SUPPORT. The model's own tests: ill-formed terms, words written out from the spec's encodings, one step per operation,
and for every statement with hypotheses a state and operands that meet them. Expected results are the spec's own
vectors (spec/95_test_vectors.md) and worked examples, named in each comment. -/

namespace Sys2Proof.Machine

/-! ### Well-formedness and decoding -/

/-- 40_synchronizer.md R111: SYN.SKIP is never selected by `02`. -/
theorem test_skip_of_02_ill_formed : (Instr.synSkip 0x02).wf = false := by decide

theorem test_skip_well_formed : (Instr.synSkip 0x65).wf = true := by decide

theorem test_drop_of_02_well_formed : (Instr.synDrop 0x02).wf = true := by decide

/-- 30_encoding.md R81, the six signature bytes in binary. -/
theorem test_decode_signature :
    decode (.event 0 0 (.byte 0b00000010)) = .ok .synAdv0 ∧ decode (.event 1 0 (.byte 0b10000000)) = .ok .synAdv1 ∧
    decode (.event 2 0 (.byte 0b11001110)) = .ok .synAdv2 ∧ decode (.event 3 0 (.byte 0b00000000)) = .ok .synAdv3 ∧
    decode (.event 4 0 (.byte 0b10110000)) = .ok .synAdv4 ∧ decode (.event 5 0 (.byte 0b01100101)) = .ok .synLock := by
  decide

/-- 95_test_vectors.md S3, S14, S12, Y2, Y4. -/
theorem test_decode_other_bytes :
    decode (.event 0 0 (.byte 0b01100101)) = .ok (.synSkip 0x65) ∧
    decode (.event 1 0 (.byte 0b00000010)) = .ok (.synDrop 0x02) ∧
    decode (.event 5 0 (.byte 0b01100100)) = .ok (.synDrop 0x64) ∧
    decode (.event 6 1 (.byte 0b00000010)) = .ok (.payPut 0x02) ∧
    decode (.event 6 195 (.byte 0b00000011)) = .ok (.payLast 0x03) := by decide

/-- 30_encoding.md R87, the rows that are no byte. -/
theorem test_decode_events :
    decode (.event 0 0 .eos) = .ok .errEos ∧ decode (.event 3 0 .eos) = .ok .errShort ∧
    decode (.event 6 100 .eos) = .ok .errShort ∧ decode (.event 3 0 .ioErr) = .ok .errIo ∧
    decode (.event 0 0 .sinkAck) = .ok .snkAck ∧ decode (.event 0 0 .sinkFail) = .ok .snkFail ∧
    decode (.event 6 57 .reset) = .ok .reset := by decide

/-- 30_encoding.md R88, places counted from FRM.DISPATCH at 0. -/
theorem test_decode_stages :
    decode (.stage .warmup 0) = .ok .frmDispatch ∧ decode (.stage .warmup 1) = .ok (.decSample 0) ∧
    decode (.stage .live 196) = .ok (.prjProject 97) ∧ decode (.stage .warmup 294) = .ok (.calMin 97) ∧
    decode (.stage .arming 295) = .ok (.calFin 0) ∧ decode (.stage .live 197) = .ok (.selQual 0) ∧
    decode (.stage .live 295) = .ok .selArgmin ∧ decode (.stage .live 296) = .ok .selFire ∧
    decode (.stage .live 297) = .ok .cmdEmit := by decide

theorem test_decode_no_such_stage : decode (.stage .warmup 295) = .error (.noSuchStage 295) := by decide

/-- 95_test_vectors.md D2, D3, D4, D6, D9, D10, D13. -/
theorem test_decode_sample_pairs :
    decodeSample 0xFF 0x1F = 8191 ∧ decodeSample 0xFF 0xFF = 8191 ∧ decodeSample 0x00 0xE0 = 0 ∧
    decodeSample 0xE8 0xA3 = 1000 ∧ decodeSample 0x34 0x12 = 4660 ∧ decodeSample 0x34 0xF2 = 4660 ∧
    decodeSample 0xB0 0x65 = 1456 := by decide

/-- 44_selector.md R180, examples; 30_encoding.md R91, a reserved index. -/
theorem test_command_byte :
    encodeCommand 42 true = 0b10101010 ∧ encodeCommand 0 false = 0x00 ∧ encodeCommand 97 true = 0xE1 ∧
    decodeCommand 0b11100001 = .ok (true, 97) ∧ decodeCommand 0x62 = .error (.reservedIndex 0x62) := by decide

/-- 30_encoding.md R84, R95: the frame of 98 samples of 1000 is the signature and 98 pairs `E8 03`. -/
theorem test_frame_bytes :
    (frameBytes (fun _ => 1000) fun _ => 0).length = 202 ∧
    (frameBytes (fun _ => 1000) fun _ => 0).take 10 = [0x02, 0x80, 0xCE, 0x00, 0xB0, 0x65, 0xE8, 0x03, 0xE8, 0x03] := by
  decide +kernel

/-- The table's rows with a fixed byte are read as themselves. -/
theorem test_table_words :
    [0x02, 0x80, 0xCE, 0x00, 0xB0, 0x65].map (decodeTableWord 8) =
      [some .synAdv0, some .synAdv1, some .synAdv2, some .synAdv3, some .synAdv4, some .synLock] := by decide

/-! ### Small states -/

/-- The launch state under the test configuration at given sequencing registers. -/
def testAt (mp : MatchPos) (pcnt : FbAddr) : State := { launchState Config.test with mp := mp, pcnt := pcnt }

/-- `TCFG` with one warm-up frame (95_test_vectors.md P5d). -/
def oneFrame : Config := { Config.test with warmupFrames := 1, warmup_pos := by decide, warmup_le := by decide }

/-- An armed state whose baseline is 990 everywhere. -/
def testArmed : State :=
  { launchState oneFrame with phase := .armed, fc := 1, ref := Vector.replicate 98 990 }

/-- A pending command (95_test_vectors.md E6, E7). -/
def testPending : State := { testArmed with cv := true, cmd := 0xAA }

/-- A halted state (95_test_vectors.md E12). -/
def testHalted : State := { testArmed with halted := true, err := 2, ecause := 1 }

/-- A field of the state an outcome answers. -/
def field {α : Type} (f : State → α) : Host.Outcome State Fault Refusal → Option α
  | .next t => some (f t)
  | .fault _ => none
  | .refused _ => none

/-! ### One step per operation -/

/-- 95_test_vectors.md S1 to S10, S14: the match progress after one byte. -/
theorem test_syn_steps :
    field State.mp (eventStep (testAt 0 0) (.byte 0x65)) = some 0 ∧
    field State.mp (eventStep (testAt 0 0) (.byte 0x02)) = some 1 ∧
    field State.mp (eventStep (testAt 1 0) (.byte 0x80)) = some 2 ∧
    field State.mp (eventStep (testAt 2 0) (.byte 0xCE)) = some 3 ∧
    field State.mp (eventStep (testAt 3 0) (.byte 0x00)) = some 4 ∧
    field State.mp (eventStep (testAt 4 0) (.byte 0xB0)) = some 5 ∧
    field State.mp (eventStep (testAt 5 0) (.byte 0x65)) = some 6 ∧
    field State.mp (eventStep (testAt 1 0) (.byte 0x02)) = some 0 ∧
    field State.mp (eventStep (testAt 5 0) (.byte 0x64)) = some 0 := by decide

/-- 95_test_vectors.md Y2: a `02` of the payload is data. -/
theorem test_put_stores :
    field (fun t => (t.mp, t.pcnt, readByte t 1)) (eventStep (testAt 6 1) (.byte 0x02)) = some (6, 2, 0x02) := by decide

/-- 95_test_vectors.md Y3: the last byte PAY.PUT stores. -/
theorem test_put_before_last :
    field (fun t => (t.mp, t.pcnt)) (eventStep (testAt 6 194) (.byte 0x00)) = some (6, 195) := by decide

/-- 95_test_vectors.md Y4, with the pair `E8 03` of sample 97 complete: `PROJ(1000, 97) = 682`. -/
theorem test_last_counts_frame :
    field (fun t => (t.mp, t.pcnt, t.fc, t.ref[97], t.ref[0], t.cv))
      (eventStep { testAt 6 195 with fb := [(194, 0xE8)] } (.byte 0x03)) = some (0, 0, 1, 682, 0, false) := by
  decide +kernel

/-- 95_test_vectors.md D6: the ignored bits are dropped. -/
theorem test_decode_sample :
    field (fun t => t.scratch.samp[3]) (exec (.decSample 3) { testAt 0 0 with fb := [(6, 0xE8), (7, 0xA3)] }) =
      some 1000 := by decide

/-- 42_projector.md R149: `PROJ(7316, 3) = 4990`, the input nearest to a tie. -/
theorem test_project :
    field (fun t => t.scratch.proj[3])
      (exec (.prjProject 3) { testAt 0 0 with
        scratch := { Scratch.clear with samp := Vector.replicate 98 7316 } }) = some 4990 := by decide

/-- 42_projector.md R149, further rows. -/
theorem test_project_rows :
    project 1 0 = 1 ∧ project 2 97 = 1 ∧ project 1000 0 = 643 ∧ project 1000 20 = 866 ∧ project 5741 5 = 4060 ∧
    project 7856 32 = 7471 ∧ project 8191 50 = 8191 ∧ project 8191 97 = 5586 := by decide

/-- 95_test_vectors.md K3, K6. -/
theorem test_cal_min :
    field (fun t => t.ref[7]) (exec (.calMin 7) { testAt 0 0 with
      scratch := { Scratch.clear with proj := Vector.replicate 98 8191 } }) = some 8191 ∧
    field (fun t => t.ref[7]) (exec (.calMin 7) { testAt 0 0 with
      ref := Vector.replicate 98 643, scratch := { Scratch.clear with proj := Vector.replicate 98 644 } }) = some 643 := by
  decide

/-- 43_calibrator.md R157, example: 5265 becomes 1990; the last index arms the block. -/
theorem test_cal_fin :
    field (fun t => (t.ref[4], t.phase)) (exec (.calFin 4) { testAt 0 0 with
      fc := 30, ref := Vector.replicate 98 5265 }) = some (1990, .warmingUp) ∧
    field (fun t => (t.ref[97], t.phase)) (exec (.calFin 97) { testAt 0 0 with
      fc := 30, ref := Vector.replicate 98 11 }) = some (1, .armed) := by decide

/-- 43_calibrator.md R164, the twelve columns. -/
theorem test_finalise_columns :
    [0, 1, 9, 10, 11, 12, 20, 1999, 2000, 2001, 8191, 65535].map (finalise Config.test) =
      [0, 1, 9, 10, 1, 2, 10, 1989, 1990, 1990, 1990, 1990] := by decide

/-- 95_test_vectors.md Q1 to Q9. -/
theorem test_qualifies :
    [qualifies Config.test 632 633, qualifies Config.test 633 633, qualifies Config.test 0 633,
      qualifies Config.test 1 633, qualifies Config.test 1 1, qualifies Config.test 5 0,
      qualifies Config.test 1989 1990, qualifies Config.test 1999 65535, qualifies Config.test 2000 65535] =
      [true, false, false, true, false, false, true, true, false] := by decide

/-- 95_test_vectors.md Q1 through the operation. -/
theorem test_sel_qual :
    field (fun t => (t.scratch.qual[8], t.scratch.qual[9])) (exec (.selQual 8) { testArmed with
      scratch := { Scratch.clear with proj := Vector.replicate 98 989 } }) = some (true, false) := by decide

/-- The example of 44_selector.md R178: 640 at index 1, 600 at 3 and at 4: index 3. -/
theorem test_sel_argmin :
    field (fun t => (t.scratch.best, t.scratch.idx)) (exec .selArgmin { testArmed with
      scratch := { Scratch.clear with
        qual := Vector.ofFn fun i => decide (i = 1 ∨ i = 3 ∨ i = 4)
        proj := Vector.ofFn fun i => if i = 1 then 640 else 600 } }) = some (600, 3) := by decide +kernel

/-- 44_selector.md R178, case (b): no candidate gives index 0. -/
theorem test_sel_argmin_none :
    field (fun t => (t.scratch.best, t.scratch.idx)) (exec .selArgmin testArmed) = some (0xFFFF, 0) := by
  decide +kernel

/-- 44_selector.md R179: the selected index decides. -/
theorem test_sel_fire :
    field (fun t => t.scratch.fire) (exec .selFire { testArmed with
      scratch := { Scratch.clear with qual := Vector.ofFn fun i => decide (i = 3), idx := 3 } }) = some true := by decide

/-- 44_selector.md R180, example: index 42 with fire is `AA`. -/
theorem test_cmd_emit :
    field (fun t => (t.cmd, t.cv)) (exec .cmdEmit { testArmed with
      scratch := { Scratch.clear with idx := 42, fire := true } }) = some (0xAA, true) := by decide

/-- The last byte of a live frame, a held byte, a failed write, a byte held by the halt, a reset, and a byte of the new
session. -/
def testProgram : ProgramResult :=
  runProgram { testArmed with mp := 6, pcnt := 195, ref := Vector.replicate 98 697, fb := [(10, 0xF4), (11, 0x01)] }
    [.byte 0x00, .byte 0x02, .sinkFail, .byte 0x02, .reset, .byte 0x02]

/-- 95_test_vectors.md P5d (the frame of (ii), the answer of (i)) and E12: the commands and the final state
(00_scope.md R5). -/
theorem test_program_manual_ack :
    (testProgram.commands, testProgram.final.mp, testProgram.final.halted, testProgram.final.phase) =
      ([0x85], 1, false, .warmingUp) := by decide +kernel

/-- 95_test_vectors.md P5d (ii): `PROJ[5] = 354` below 697 gives the command `85`. -/
theorem test_dispatch_live :
    field (fun t => (t.cmd, t.cv, t.fc)) (exec .frmDispatch { testArmed with
      ref := Vector.replicate 98 697, fb := [(10, 0xF4), (11, 0x01)] }) = some (0x85, true, 1) := by decide +kernel

/-- 95_test_vectors.md E7. -/
theorem test_snk_ack :
    field (fun t => (t.cv, t.cmd, t.halted)) (eventStep testPending .sinkAck) = some (false, 0xAA, false) := by decide

/-- 95_test_vectors.md E1 to E6. -/
theorem test_errors :
    field (fun t => (t.halted, t.err, t.ecause)) (eventStep (testAt 0 0) .eos) = some (true, 1, 0) ∧
    field (fun t => (t.halted, t.err, t.ecause)) (eventStep (testAt 6 100) .eos) = some (true, 2, 2) ∧
    field (fun t => (t.halted, t.err, t.ecause)) (eventStep (testAt 3 0) .ioErr) = some (true, 2, 1) ∧
    field (fun t => (t.cv, t.cmd, t.halted, t.err, t.ecause)) (eventStep testPending .sinkFail) =
      some (false, 0xAA, true, 2, 3) := by decide

/-- 95_test_vectors.md E8, E10, E11: an event that is not admitted changes nothing. -/
theorem test_not_admitted :
    eventStep testPending (.byte 0x02) = .next testPending ∧ eventStep testArmed .sinkAck = .next testArmed ∧
    eventStep testHalted .eos = .next testHalted := ⟨rfl, rfl, rfl⟩

/-- 95_test_vectors.md E12, E14. -/
theorem test_reset :
    field (fun t => (t.halted, t.err, t.phase, t.fc, t.ref[50])) (eventStep testHalted .reset) =
      some (false, 0, .warmingUp, 0, 65535) ∧
    field (fun t => (t.cv, t.cmd)) (eventStep testPending .reset) = some (false, 0x00) := by decide

/-- A step waits for the sink while a command is pending and passes over a held byte (45_pipeline.md R197). -/
theorem test_step_holds_byte :
    field (fun t => (t.cv, t.offers)) (step { testPending with offers := [.byte 0x02, .sinkAck] }) =
      some (false, [.byte 0x02]) := by decide

/-- The next step after `withFetchWord` runs the word's operation, from the launch state. -/
theorem test_fetch_word :
    field State.mp (step (State.reset.withFetchWord 8 0xCE)) = some 3 ∧
    field (fun t => (t.mp, t.fc)) (step (State.reset.withFetchWord 16 0xA3E8)) = some (0, 1) := by decide +kernel

/-- 42_projector.md R146: the table is symmetric about index 50 and its least entry is that of index 0. -/
theorem test_sine_table :
    sineTable.length = 98 ∧ (∀ i : SampleIdx, 3 ≤ i.val → sineTable.getD i.val 0 = sineTable.getD (100 - i.val) 0) ∧
    ∀ i : SampleIdx, sineTable.getD 0 0 ≤ sineTable.getD i.val 0 ∧ sineTable.getD i.val 0 ≤ 2 ^ 29 := by
  decide +kernel

/-! ### Witnesses: states and operands that meet the hypotheses of the statements -/

theorem witness_source_awaited : SourceAwaited (testAt 0 0) ∧ SourceAwaited testArmed := ⟨⟨rfl, rfl⟩, ⟨rfl, rfl⟩⟩

/-- For OneOperationPerByte, at `02`, the first byte of a header and the byte a drop loses. -/
theorem witness_OneOperationPerByte :
    Instr.synAdv0 ∈ rowsForByte 0x02 ∧ Selected .synAdv0 (testAt 0 0) ∧ Selected (.synDrop 0x02) (testAt 5 0) := by
  refine ⟨by decide, ⟨⟨rfl, rfl⟩, rfl⟩, ⟨⟨rfl, rfl⟩, ?_⟩⟩
  decide

/-- For DecodeInvertsEncode: a well-formed term at the edge of each operand's range. -/
theorem witness_DecodeInvertsEncode :
    decode (encode (.synSkip 0xFF)) = .ok (.synSkip 0xFF) ∧ decode (encode (.synDrop 0x80)) = .ok (.synDrop 0x80) ∧
    decode (encode (.synDrop 0x02)) = .ok (.synDrop 0x02) ∧ decode (encode (.decSample 97)) = .ok (.decSample 97) ∧
    decode (encode (.calFin 0)) = .ok (.calFin 0) ∧ decode (encode (.selQual 97)) = .ok (.selQual 97) := by
  decide +kernel

/-- For SelectionTable: each bounded row at its edges. -/
theorem witness_SelectionTable :
    selectEvent 5 0 (.byte 0x64) = .synDrop 0x64 ∧ selectEvent 1 0 (.byte 0x02) = .synDrop 0x02 ∧
    selectEvent 6 194 (.byte 0) = .payPut 0 ∧ selectEvent 1 0 .eos = .errShort ∧ selectEvent 6 195 .eos = .errShort := by
  decide

/-- For AdmissionOfEvents and HaltAdmitsOnlyReset: an event that is not admitted, offered. -/
theorem witness_AdmissionOfEvents :
    admits testPending (.byte 0x02) = false ∧ admits testHalted .eos = false ∧
    InEvent.byte 0x02 ∈ ({ testPending with offers := [.byte 0x02, .sinkAck] } : State).offers ∧
    (∃ t, step { testPending with offers := [.byte 0x02, .sinkAck] } = .next t) :=
  ⟨rfl, rfl, by decide, _, rfl⟩

/-- For StepRunsDecodedOperation: a held byte, an admitted answer behind it; and a state with nothing admitted. -/
theorem witness_StepRunsDecodedOperation :
    (∀ x ∈ [InEvent.byte 0x02], admits testPending x = false) ∧ admits testPending .sinkAck = true ∧
    decode (.event testPending.mp testPending.pcnt .sinkAck) = .ok .snkAck ∧
    (∀ e ∈ ([.byte 0x02, .eos, .sinkFail] : List InEvent), admits testHalted e = false) := by decide

theorem witness_OperationsRunWhereSelected :
    Selected (.payLast 0x03) (testAt 6 195) ∧ ¬ Selected .snkAck (testAt 0 0) ∧ Selected .reset testHalted :=
  ⟨⟨⟨rfl, rfl⟩, rfl, rfl⟩, fun h => by simp [Selected, SinkAwaited, testAt, launchState, State.reset] at h, trivial⟩

theorem witness_SkipDiscardsByte : SourceAwaited (testAt 0 0) ∧ (testAt 0 0).mp = 0 ∧ (0x65 : Byte) ≠ 0x02 :=
  ⟨⟨rfl, rfl⟩, rfl, by decide⟩

theorem witness_AdvanceAddsOne :
    (SourceAwaited (testAt 0 0) ∧ (testAt 0 0).mp = 0) ∧ (SourceAwaited (testAt 1 0) ∧ (testAt 1 0).mp = 1) ∧
    (SourceAwaited (testAt 2 0) ∧ (testAt 2 0).mp = 2) ∧ (SourceAwaited (testAt 3 0) ∧ (testAt 3 0).mp = 3) ∧
    (SourceAwaited (testAt 4 0) ∧ (testAt 4 0).mp = 4) :=
  ⟨⟨⟨rfl, rfl⟩, rfl⟩, ⟨⟨rfl, rfl⟩, rfl⟩, ⟨⟨rfl, rfl⟩, rfl⟩, ⟨⟨rfl, rfl⟩, rfl⟩, ⟨rfl, rfl⟩, rfl⟩

theorem witness_LockStartsPayload : SourceAwaited (testAt 5 0) ∧ (testAt 5 0).mp = 5 := ⟨⟨rfl, rfl⟩, rfl⟩

/-- For DropLosesByte: both edges of `1 ≤ mp ≤ 5`, with the byte `02`. -/
theorem witness_DropLosesByte :
    (SourceAwaited (testAt 1 0) ∧ sigTable[(testAt 1 0).mp.val]? ≠ some 0x02) ∧
    (SourceAwaited (testAt 5 0) ∧ sigTable[(testAt 5 0).mp.val]? ≠ some 0x02) :=
  ⟨⟨⟨rfl, rfl⟩, by decide⟩, ⟨rfl, rfl⟩, by decide⟩

/-- For PutStoresPayloadByte: both edges of `pcnt < 195`. -/
theorem witness_PutStoresPayloadByte :
    (SourceAwaited (testAt 6 0) ∧ (testAt 6 0).mp = 6 ∧ (testAt 6 0).pcnt.val < 195 ∧ (testAt 6 0).fb.wf = true) ∧
    (SourceAwaited (testAt 6 194) ∧ (testAt 6 194).mp = 6 ∧ (testAt 6 194).pcnt.val < 195) :=
  ⟨⟨⟨rfl, rfl⟩, rfl, by decide, rfl⟩, ⟨rfl, rfl⟩, rfl, by decide⟩

theorem witness_LastCompletesFrame :
    SourceAwaited (testAt 6 195) ∧ (testAt 6 195).mp = 6 ∧ (testAt 6 195).pcnt = 195 ∧ (testAt 6 195).fb.wf = true :=
  ⟨⟨rfl, rfl⟩, rfl, rfl, rfl⟩

/-- For DiffersFromBacktrackingOnlyAtDrop: a `02` that breaks a partial match. -/
theorem witness_DiffersFromBacktrackingOnlyAtDrop :
    SourceAwaited (testAt 5 0) ∧ (testAt 5 0).mp ≠ 6 ∧ (testAt 5 0).mp ≠ 0 ∧
    eventStep (testAt 5 0) (.byte 0x02) = .next (testAt 0 0) := ⟨⟨rfl, rfl⟩, by decide, by decide, rfl⟩

/-- For GarbageThenFrameConsumed: garbage of signature bytes in wrong places (95_test_vectors.md P1). -/
theorem witness_GarbageThenFrameConsumed :
    SourceAwaited testArmed ∧ testArmed.mp = 0 ∧ testArmed.fb.wf = true ∧
    ∀ b ∈ ([0x11, 0x80, 0xCE, 0x00, 0x65] : List Byte), b ≠ 0x02 := ⟨⟨rfl, rfl⟩, rfl, rfl, by decide⟩

/-- For HuntingFrame and SequencingRegisters. -/
theorem witness_HuntingFrame :
    exec (.synSkip 0x65) (testAt 0 0) = .next (testAt 0 0) ∧ exec .synAdv0 (testAt 0 0) = .next (testAt 1 0) ∧
    exec .synAdv1 (testAt 1 0) = .next (testAt 2 0) ∧ exec .synAdv2 (testAt 2 0) = .next (testAt 3 0) ∧
    exec .synAdv3 (testAt 3 0) = .next (testAt 4 0) ∧ exec .synAdv4 (testAt 4 0) = .next (testAt 5 0) ∧
    exec .synLock (testAt 5 0) = .next (testAt 6 0) ∧ exec (.synDrop 0x02) (testAt 5 0) = .next (testAt 0 0) ∧
    ((testAt 5 0).mp ≠ 6 → (testAt 5 0).pcnt = 0) := ⟨rfl, rfl, rfl, rfl, rfl, rfl, rfl, rfl, fun _ => rfl⟩

/-- For PayloadFrame: each clause, PAY.LAST also while ARMED. -/
theorem witness_PayloadFrame :
    (∃ t, exec (.payPut 0x02) (testAt 6 194) = .next t) ∧ (∃ t, exec (.payLast 0x03) (testAt 6 195) = .next t) ∧
    (∃ t, exec (.payLast 0x03) { testArmed with mp := 6, pcnt := 195 } = .next t) ∧ testArmed.phase = .armed :=
  ⟨⟨_, rfl⟩, ⟨_, rfl⟩, ⟨_, rfl⟩, rfl⟩

theorem witness_CalMinLowersBaseline : SourceAwaited (testAt 0 0) ∧ (testAt 0 0).phase = .warmingUp := ⟨⟨rfl, rfl⟩, rfl⟩

/-- For CalFinFinalisesBaseline: the count at `WARMUP_FRAMES`, still warming up. -/
theorem witness_CalFinFinalisesBaseline :
    let s : State := { testAt 0 0 with fc := 30 }
    SourceAwaited s ∧ s.phase = .warmingUp ∧ s.fc.toNat = s.cfg.warmupFrames := ⟨⟨rfl, rfl⟩, rfl, rfl⟩

/-- For the selector's statements and DispatchSelectsTarget. -/
theorem witness_armed : SourceAwaited testArmed ∧ testArmed.phase = .armed := ⟨⟨rfl, rfl⟩, rfl⟩

/-- For ArgminFindsNearest: no candidate value below `INF`, and one. -/
theorem witness_ArgminFindsNearest :
    (∀ i : SampleIdx, (if testArmed.scratch.qual[i.val] then testArmed.scratch.proj[i.val].toNat else 65535) = 65535) ∧
    (let s : State := { testArmed with scratch := { Scratch.clear with qual := Vector.replicate 98 true } }
      ∃ i : SampleIdx, (if s.scratch.qual[i.val] then s.scratch.proj[i.val].toNat else 65535) < 65535) :=
  ⟨fun i => by simp [testArmed, launchState, State.reset, Scratch.clear], 0, by decide⟩

/-- For StageFrame: each stage answers a next state somewhere. -/
theorem witness_StageFrame :
    (∃ t, exec (.decSample 97) testArmed = .next t) ∧ (∃ t, exec (.prjProject 97) testArmed = .next t) ∧
    (∃ t, exec (.selQual 97) testArmed = .next t) ∧ (∃ t, exec .selArgmin testArmed = .next t) ∧
    (∃ t, exec .selFire testArmed = .next t) ∧ (∃ t, exec .cmdEmit testArmed = .next t) ∧
    (∃ t, exec (.calMin 97) (testAt 0 0) = .next t) ∧
    (∃ t, exec (.calFin 97) { testAt 0 0 with fc := 30 } = .next t) :=
  ⟨⟨_, rfl⟩, ⟨_, rfl⟩, ⟨_, rfl⟩, ⟨_, rfl⟩, ⟨_, rfl⟩, ⟨_, rfl⟩, ⟨_, rfl⟩, ⟨_, rfl⟩⟩

/-- For FinalisationBounds: a threshold above the margin with an entry at it, and one not above the margin. -/
theorem witness_FinalisationBounds :
    (Config.test.margin < Config.test.maxThreshold ∧ Config.test.maxThreshold ≤ (2000 : Dist).toNat) ∧
    ∃ cfg : Config, cfg.maxThreshold ≤ cfg.margin :=
  ⟨by decide, { Config.test with maxThreshold := 10, threshold_le := by decide }, by decide⟩

theorem witness_ProjectionRange : (8190 : Sample).toNat ≤ (8191 : Sample).toNat := by decide

/-- For the three statements of frame dispatch and DispatchIsItsStages: one state of each kind of frame. -/
theorem witness_Dispatch :
    (SourceAwaited (testAt 0 0) ∧ (testAt 0 0).phase = .warmingUp ∧
      ((testAt 0 0).fc + 1).toNat ≠ (testAt 0 0).cfg.warmupFrames ∧ frameKind (testAt 0 0) = .warmup) ∧
    (SourceAwaited (launchState oneFrame) ∧ (launchState oneFrame).phase = .warmingUp ∧
      ((launchState oneFrame).fc + 1).toNat = (launchState oneFrame).cfg.warmupFrames ∧
      frameKind (launchState oneFrame) = .arming) ∧
    frameKind testArmed = .live :=
  ⟨⟨⟨rfl, rfl⟩, rfl, by decide, by decide⟩, ⟨⟨rfl, rfl⟩, rfl, by decide, by decide⟩, by decide⟩

/-- For DispatchIsPureFunction: two states that agree on what the frame is a function of and differ elsewhere. -/
theorem witness_DispatchIsPureFunction :
    let s' : State := { testArmed with cmd := 0xAA, mp := 3 }
    testArmed.cfg = s'.cfg ∧ testArmed.phase = s'.phase ∧ testArmed.fc = s'.fc ∧ testArmed.ref = s'.ref ∧
    (∀ a, readByte testArmed a = readByte s' a) ∧ (∃ t, exec .frmDispatch testArmed = .next t) ∧
    (∃ t, exec .frmDispatch s' = .next t) := ⟨rfl, rfl, rfl, rfl, fun _ => rfl, ⟨_, rfl⟩, ⟨_, rfl⟩⟩

/-- For SingleIntruderDetected: baselines of 0 but one, of 2, and a frame of zeros but for a distance of 1 there. -/
theorem witness_SingleIntruderDetected :
    let s : State := { testArmed with
      ref := Vector.ofFn fun i : SampleIdx => if i = 50 then 2 else 0
      fb := [(100, 0x01)] }
    SourceAwaited s ∧ s.phase = .armed ∧ s.ref[50].toNat ≤ s.cfg.maxThreshold ∧ 2 ≤ s.ref[50].toNat ∧
    frameProjNat s 50 = s.ref[50].toNat - 1 ∧
    ∀ j : SampleIdx, j ≠ 50 → s.ref[j.val].toNat ≤ frameProjNat s j := by
  refine ⟨⟨rfl, rfl⟩, rfl, by decide, by decide, by decide, fun j hj => ?_⟩
  simp [hj]

/-- For OnlyLegalCommands: a frame that produces a command. -/
theorem witness_OnlyLegalCommands : field (fun t => t.cv) (exec .frmDispatch testArmed) = some true := by
  decide +kernel

theorem witness_AckClearsPending : SinkAwaited testPending := ⟨rfl, rfl⟩

/-- For ErrorsHaltWithCodes and ErrorFrame: each operation, ERR.SHORT at both edges of `mp`. -/
theorem witness_Errors :
    (∃ t, exec .errEos (testAt 0 0) = .next t) ∧ (∃ t, exec .errShort (testAt 1 0) = .next t) ∧
    (∃ t, exec .errShort (testAt 6 195) = .next t) ∧ (∃ t, exec .errIo (testAt 3 0) = .next t) ∧
    (∃ t, exec .snkFail testPending = .next t) ∧ (∃ t, exec .snkAck testPending = .next t) :=
  ⟨⟨_, rfl⟩, ⟨_, rfl⟩, ⟨_, rfl⟩, ⟨_, rfl⟩, ⟨_, rfl⟩, ⟨_, rfl⟩⟩

/-- For HaltAdmitsOnlyReset: a halted state, with and without a `Reset` offered. -/
theorem witness_HaltAdmitsOnlyReset :
    testHalted.halted = true ∧ InEvent.reset ∉ testHalted.offers ∧ (∃ t, exec .reset testHalted = .next t) ∧
    InEvent.reset ∉ ([.byte 0x02, .eos, .sinkAck] : List InEvent) :=
  ⟨rfl, by decide, ⟨_, rfl⟩, by decide⟩

/-- For ConfigurationNeverWritten. -/
theorem witness_ConfigurationNeverWritten :
    (∃ t, exec .reset testHalted = .next t) ∧ ∃ t, step { testAt 6 195 with offers := [.byte 0x03] } = .next t :=
  ⟨⟨_, rfl⟩, _, rfl⟩

/-- For BaselineFrozenWhenArmed. -/
theorem witness_BaselineFrozenWhenArmed :
    testArmed.phase = .armed ∧ Instr.frmDispatch ≠ .reset ∧ ∃ t, exec .frmDispatch testArmed = .next t :=
  ⟨rfl, by decide, _, rfl⟩

/-- For BaselineWriters: an operation that changes the baseline. -/
theorem witness_BaselineWriters :
    field (fun t => t.ref[0]) (exec (.calMin 0) (testAt 0 0)) = some 0 ∧ (testAt 0 0).ref[0] = 65535 := by decide

/-- For PendingCommandHoldsSource: the sink answers, and `Reset` withdraws the command. -/
theorem witness_PendingCommandHoldsSource :
    testPending.cv = true ∧ (∃ t, step { testPending with offers := [.byte 0x02, .sinkAck] } = .next t) ∧
    field State.cmd (step { testPending with offers := [.reset] }) = some 0x00 := ⟨rfl, ⟨_, rfl⟩, by decide⟩

/-- For InvariantKeptByStep: a launch state with a byte offered meets the invariant. -/
theorem witness_InvariantKeptByStep :
    ({ launchState oneFrame with offers := [.byte 0x02] } : State).Inv := by
  refine ⟨fun _ => rfl, Nat.zero_le _, ?_, fun _ i => ?_, fun h => absurd rfl h, fun h => ?_, fun h => ?_, ?_,
    .inl ⟨rfl, rfl⟩, .inl rfl, rfl, rfl⟩
  · decide
  · simp [launchState, State.reset]
  · cases h
  · cases h
  · decide

/-- For OldBufferUnobservable: two states that differ in the buffer alone. -/
theorem witness_OldBufferUnobservable :
    let s' : State := { testAt 5 0 with fb := [(3, 0x65)] }
    SameButBuffer (testAt 5 0) s' ∧ (testAt 5 0).fb.wf = true ∧ s'.fb.wf = true ∧ (testAt 5 0).mp ≠ 6 :=
  ⟨rfl, rfl, by decide, by decide⟩

/-- For IgnoredBitsReachNothing. -/
theorem witness_IgnoredBitsReachNothing :
    SourceAwaited testArmed ∧ testArmed.mp = 0 ∧ testArmed.fb.wf = true := ⟨⟨rfl, rfl⟩, rfl, rfl⟩

/-- A session of one frame. -/
def testSession : State × List Byte := runBytes (launchState oneFrame) (frameBytes (fun _ => 1000) fun _ => 0)

/-- For FirstCommandNeverFires, BaselineClosedForm and CommandsPerSession, in the manner of 95_test_vectors.md P5d: with
one warm-up frame the first command is `0x00` and `REF[0] = 643 - 10`. -/
theorem witness_Session :
    (testSession.2, testSession.1.ref[0], testSession.1.phase) = ([0x00], 633, .armed) := by decide +kernel

/-- For BaselineClosedForm and CommandsPerSession: one completed frame, at the bound of the clause on the armed block. -/
theorem witness_BaselineClosedForm :
    exec .reset testHalted = .next (launchState oneFrame) ∧
    (completedFrames (launchState oneFrame) (frameBytes (fun _ => 1000) fun _ => 0)).length = oneFrame.warmupFrames := by
  refine ⟨rfl, ?_⟩
  decide +kernel

/-- For BaselineClosedForm, the clause before arming: one completed frame of thirty. -/
theorem witness_BaselineClosedForm_warmup :
    exec .reset (testAt 6 195) = .next (launchState Config.test) ∧
    (completedFrames (launchState Config.test) (frameBytes (fun _ => 1000) fun _ => 0)).length = 1 ∧
    1 < Config.test.warmupFrames := by
  refine ⟨rfl, ?_, by decide⟩
  decide +kernel

/-- For FirstCommandNeverFires, its clause on programs: the same session with its acknowledgements written out. -/
theorem witness_FirstCommandNeverFires_program :
    (runProgram (launchState oneFrame)
      (withAcks (launchState oneFrame) ((frameBytes (fun _ => 1000) fun _ => 0).map .byte))).commands = [0x00] := by
  have session := runBytes_eq_runProgram (launchState oneFrame) (frameBytes (fun _ => 1000) fun _ => 0) rfl rfl
  have first := (Prod.mk.inj witness_Session).1
  rw [testSession, session] at first
  exact first

end Sys2Proof.Machine
end

section
/-! SUPPORT. Selection and the event-level step, said once: when each meaning runs, and what each admitted event makes
of the state (spec/30_encoding.md R87, R88; spec/45_pipeline.md R196, R197). -/

namespace Sys2Proof.Machine

/-! ### Admission -/

theorem awaitsSource_iff (s : State) : awaitsSource s = true ↔ SourceAwaited s := by
  simp [awaitsSource, SourceAwaited]

theorem awaitsSink_iff (s : State) : awaitsSink s = true ↔ SinkAwaited s := by
  simp [awaitsSink, SinkAwaited]

/-- A halted block admits `Reset` alone (60_exceptions.md R230). -/
theorem admits_of_halted {s : State} {e : InEvent} (hh : s.halted = true) (he : e ≠ .reset) : admits s e = false := by
  cases e with
  | reset => exact absurd rfl he
  | byte | eos | ioErr => simp [admits, awaitsSource, hh]
  | sinkAck | sinkFail => simp [admits, awaitsSink, hh]

/-- While the byte source is awaited its events are admitted (45_pipeline.md R197). -/
theorem SourceAwaited.admits {s : State} {e : InEvent} (h : SourceAwaited s) (he : fromSource e = true) :
    admits s e = true := by
  cases e with
  | byte | eos | ioErr => exact (awaitsSource_iff s).mpr h
  | sinkAck | sinkFail | reset => cases he

/-- Admission does not look at the buffer. -/
@[simp] theorem admits_fb (s : State) (m : Memory) (e : InEvent) : admits { s with fb := m } e = admits s e := by
  cases e <;> rfl

/-! ### When a meaning runs -/

theorem MatchPos.ne_zero_iff {m : MatchPos} : ¬ m = 0 ↔ 1 ≤ m.val := by
  revert m; decide

theorem MatchPos.ne_six_iff {m : MatchPos} : ¬ m = 6 ↔ m.val ≤ 5 := by
  revert m; decide

theorem FbAddr.ne_last_iff {a : FbAddr} : ¬ a = 195 ↔ a.val < 195 := by
  have := a.isLt
  simp only [Fin.ext_iff]
  omega

theorem continuesSig_iff (mp : MatchPos) (b : Byte) : continuesSig mp b = true ↔ sigTable[mp.val]? = some b := by
  simp [continuesSig]

theorem continuesSig_zero (b : Byte) : continuesSig 0 b = true ↔ b = 0x02 := by
  rw [continuesSig_iff]
  exact ⟨fun h => (Option.some.inj h).symm, fun h => congrArg some h.symm⟩

/-- The condition that a meaning tests is the condition under which the spec selects its operation. -/
theorem conditionOf_iff (i : Instr) (s : State) : conditionOf i s = true ↔ Selected i s := by
  cases i with
  | synSkip b =>
    simp only [conditionOf, huntingAt, Selected, Bool.and_eq_true, awaitsSource_iff, beq_iff_eq, Bool.not_eq_true',
      ← Bool.not_eq_true, continuesSig_zero, and_assoc, ne_eq]
  | synDrop b =>
    simp only [conditionOf, Selected, Bool.and_eq_true, awaitsSource_iff, bne_iff_ne, Bool.not_eq_true',
      ← Bool.not_eq_true, continuesSig_iff, and_assoc, MatchPos.ne_zero_iff, MatchPos.ne_six_iff, ne_eq]
  | payPut b =>
    simp [conditionOf, Selected, locked, awaitsSource_iff, FbAddr.ne_last_iff, and_assoc]
  | payLast b =>
    simp [conditionOf, Selected, locked, awaitsSource_iff, Fin.ext_iff, and_assoc]
  | synAdv0 | synAdv1 | synAdv2 | synAdv3 | synAdv4 | synLock =>
    simp [conditionOf, huntingAt, Selected, awaitsSource_iff]
  | calFin j => simp [conditionOf, Selected, warmupDone, awaitsSource_iff, and_assoc]
  | selQual | selArgmin | selFire | cmdEmit => simp [conditionOf, selecting, Selected, awaitsSource_iff]
  | decSample | prjProject | calMin | frmDispatch | errEos | errShort | errIo =>
    simp [conditionOf, Selected, awaitsSource_iff]
  | snkAck | snkFail => simp [conditionOf, Selected, awaitsSink_iff]
  | reset => simp [conditionOf, Selected]

/-- A meaning answers a next state exactly where its operation is selected, and then its effect. -/
theorem exec_next_iff {i : Instr} {s t : State} : exec i s = .next t ↔ Selected i s ∧ effectOf i s = t := by
  rw [exec_eq, whenSelected_next, conditionOf_iff]

theorem exec_selected {i : Instr} {s : State} (h : Selected i s) : exec i s = .next (effectOf i s) :=
  exec_next_iff.mpr ⟨h, rfl⟩

/-- Every operation but RESET is selected outside the halt only (60_exceptions.md R230). -/
theorem Selected.not_halted {i : Instr} {s : State} (h : Selected i s) (hi : i ≠ .reset) : s.halted = false := by
  cases i with
  | reset => exact absurd rfl hi
  | decSample | prjProject | frmDispatch | errIo | snkAck | snkFail => exact h.1
  | _ => exact h.1.1

/-! ### The operation an admitted event selects -/

theorem MatchPos.eq_of_ne_six {m : MatchPos} (h : m ≠ 6) : m = 0 ∨ m = 1 ∨ m = 2 ∨ m = 3 ∨ m = 4 ∨ m = 5 := by
  revert m; decide

theorem selected_advanceAt {s : State} (hs : SourceAwaited s) (hmp : s.mp ≠ 6) : Selected (advanceAt s.mp) s := by
  rcases MatchPos.eq_of_ne_six hmp with h | h | h | h | h | h <;> simp [advanceAt, Selected, hs, h]

/-- The advances of the match are one rule: one more position, and `pcnt` cleared at the sixth. -/
theorem effectOf_advanceAt {s : State} (hmp : s.mp ≠ 6) : effectOf (advanceAt s.mp) s =
    { s with mp := s.mp + 1, pcnt := if s.mp + 1 = 6 then 0 else s.pcnt } := by
  rcases MatchPos.eq_of_ne_six hmp with h | h | h | h | h | h <;> simp [advanceAt, effectOf, h]

/-- The match position after a byte that is read while hunting (30_encoding.md R87). -/
def huntNext (mp : MatchPos) (b : Byte) : MatchPos := if continuesSig mp b then mp + 1 else 0

/-- What a byte does while hunting: `mp` moves, and `pcnt` is cleared where the payload begins. -/
def huntByte (b : Byte) (s : State) : State :=
  { s with mp := huntNext s.mp b, pcnt := if huntNext s.mp b = 6 then 0 else s.pcnt }

/-- The operation a byte selects is selected in the spec's sense too. -/
theorem selected_selectByte {s : State} (b : Byte) (hs : SourceAwaited s) : Selected (selectByte s.mp s.pcnt b) s := by
  unfold selectByte
  split_ifs with hmp hp hsig h0
  · exact ⟨hs, hmp, by rw [hp]; rfl⟩
  · exact ⟨hs, hmp, FbAddr.ne_last_iff.mp hp⟩
  · exact selected_advanceAt hs hmp
  · exact ⟨hs, h0, fun hb => hsig (by rw [h0, continuesSig_zero]; exact hb)⟩
  · exact ⟨hs, MatchPos.ne_zero_iff.mp h0, MatchPos.ne_six_iff.mp hmp, mt (continuesSig_iff _ _).mpr hsig⟩

/-- The operation an admitted event selects is selected in the spec's sense too. -/
theorem selected_selectEvent {s : State} {e : InEvent} (h : admits s e = true) :
    Selected (selectEvent s.mp s.pcnt e) s := by
  cases e with
  | byte b => exact selected_selectByte b ((awaitsSource_iff s).mp h)
  | eos =>
    by_cases hmp : s.mp = 0 <;> simp only [selectEvent, hmp, if_true, if_false]
    · exact ⟨(awaitsSource_iff s).mp h, hmp⟩
    · exact ⟨(awaitsSource_iff s).mp h, hmp⟩
  | ioErr => exact (awaitsSource_iff s).mp h
  | sinkAck | sinkFail => exact (awaitsSink_iff s).mp h
  | reset => trivial

/-- The event-level step on an admitted event is the effect of the operation it selects. -/
theorem eventStep_effect {s : State} {e : InEvent} (h : admits s e = true) :
    eventStep s e = .next (effectOf (selectEvent s.mp s.pcnt e) s) := by
  rw [eventStep_admitted h, exec_selected (selected_selectEvent h)]

/-- The event-level step always answers a next state. -/
theorem eventStep_advance (s : State) (e : InEvent) : eventStep s e = .next (advance s e) := by
  cases h : admits s e with
  | false => rw [advance_held h, eventStep_held h]
  | true => rw [advance, eventStep_effect h]

theorem advance_admitted {s : State} {e : InEvent} (h : admits s e = true) :
    advance s e = effectOf (selectEvent s.mp s.pcnt e) s :=
  advance_of_eventStep (eventStep_effect h)

/-- A step waits, or it is one event-level step without the event it consumed. -/
theorem step_advance {s t : State} (h : step s = .next t) :
    t = s ∨ ∃ e rest, admits s e = true ∧ e ∈ s.offers ∧ t = advance { s with offers := rest } e := by
  rcases step_cases s with ⟨-, hstep⟩ | ⟨e, before, after, hoffers, -, hadm, hstep⟩
  · rw [hstep] at h
    exact .inl (Host.Outcome.next.inj h).symm
  · have hadm' : admits { s with offers := before ++ after } e = true := (admit_offers ..).trans hadm
    have heq := hstep.symm.trans h
    rw [← eventStep_admitted hadm', eventStep_advance] at heq
    exact .inr ⟨e, before ++ after, hadm, by simp [hoffers], (Host.Outcome.next.inj heq).symm⟩

/-! ### One equation for each admitted event -/

section
variable {s : State}

/-- A byte while hunting (40_synchronizer.md R111 to R114). -/
theorem advance_byte_hunting (b : Byte) (hs : SourceAwaited s) (hmp : s.mp ≠ 6) :
    advance s (.byte b) = huntByte b s := by
  rw [advance_admitted (hs.admits rfl), selectEvent, selectByte, if_neg hmp, huntByte, huntNext]
  by_cases hsig : continuesSig s.mp b = true
  · simp only [hsig, if_true]
    exact effectOf_advanceAt hmp
  · simp only [hsig, if_false, Bool.false_eq_true]
    split <;> rfl

/-- A payload byte that is not the last (40_synchronizer.md R115). -/
theorem advance_byte_put (b : Byte) (hs : SourceAwaited s) (hmp : s.mp = 6) (hp : s.pcnt ≠ 195) :
    advance s (.byte b) = { writeByte s.pcnt b s with pcnt := nextAddr s.pcnt } := by
  rw [advance_admitted (hs.admits rfl), selectEvent, selectByte, if_pos hmp, if_neg hp]
  rfl

/-- The last payload byte (40_synchronizer.md R116). -/
theorem advance_byte_last (b : Byte) (hs : SourceAwaited s) (hmp : s.mp = 6) (hp : s.pcnt = 195) :
    advance s (.byte b) = frmDispatch (completeFrame b s) := by
  rw [advance_admitted (hs.admits rfl), selectEvent, selectByte, if_pos hmp, if_pos hp]
  rfl

/-- The end of the stream (60_exceptions.md R222, R223). -/
theorem advance_eos (hs : SourceAwaited s) :
    advance s .eos = if s.mp = 0 then raise .streamClosed 0 s else raise .ioFailure causeShort s := by
  rw [advance_admitted (hs.admits rfl), selectEvent]
  split <;> rfl

/-- A failed read (60_exceptions.md R224). -/
theorem advance_ioErr (hs : SourceAwaited s) : advance s .ioErr = raise .ioFailure causeRead s :=
  advance_admitted (hs.admits rfl)

/-- A failed command write (60_exceptions.md R225). -/
theorem advance_sinkFail (hs : SinkAwaited s) :
    advance s .sinkFail = raise .ioFailure causeWrite { s with cv := false } :=
  advance_admitted (e := .sinkFail) ((awaitsSink_iff s).mpr hs)

/-- `Reset`, in every state (70_reset_and_hazards.md R260). -/
theorem advance_reset : advance s .reset = resetState s := advance_admitted (e := .reset) rfl

end

end Sys2Proof.Machine
end

section
/-! SUPPORT. The frame: the arithmetic of its stages on natural numbers, and the frame's three outcomes as next states
(spec/30_encoding.md R88; spec/45_pipeline.md R200). -/

namespace Sys2Proof.Machine

/-! ### The arithmetic of the stages -/

theorem minDist_toNat (a b : Dist) : (minDist a b).toNat = min a.toNat b.toNat := by
  simp only [minDist, BitVec.lt_def]
  split <;> omega

/-- The clamp and the margin are those of `finNat` (43_calibrator.md R158). -/
theorem finalise_toNat (cfg : Config) (r : Dist) : (finalise cfg r).toNat = finNat cfg r.toNat := by
  have hmax := cfg.threshold_le
  have hr := r.isLt
  have clamp : (if cfg.maxThreshold < r.toNat then BitVec.ofNat 16 cfg.maxThreshold else r).toNat =
      min r.toNat cfg.maxThreshold := by
    split
    · rw [BitVec.toNat_ofNat]; omega
    · omega
  simp only [finalise, finNat]
  rw [clamp]
  split
  · rw [BitVec.toNat_ofNat]; omega
  · exact clamp

/-- The finalisation never raises an entry, nor leaves it above the clamp (43_calibrator.md R158). -/
theorem finNat_le (cfg : Config) (r : Nat) : finNat cfg r ≤ r ∧ finNat cfg r ≤ cfg.maxThreshold := by
  simp only [finNat]
  split <;> omega

theorem sinq_le (i : SampleIdx) : (sinq i).toNat ≤ 2 ^ 29 := by
  revert i; decide

/-- A projected distance is at most the greatest sample (42_projector.md R145). -/
theorem project_le (raw : Sample) (i : SampleIdx) : (project raw i).toNat ≤ 8191 := by
  have hraw : raw.toNat ≤ 8191 := Nat.le_of_lt_succ raw.isLt
  have hprod : raw.toNat * (sinq i).toNat ≤ 8191 * 2 ^ 29 := Nat.mul_le_mul hraw (sinq_le i)
  rw [project, BitVec.toNat_ofNat, Nat.shiftRight_eq_div_pow]
  omega

theorem projOf_le (s : State) (i : SampleIdx) : (projOf s)[i.val].toNat ≤ 8191 := by
  rw [projOf, Vector.getElem_ofFn]
  exact project_le _ _

/-! ### The command byte -/

theorem encodeCommand_fire_toNat (idx : SampleIdx) : (encodeCommand idx true).toNat = 128 + idx.val := by
  revert idx; decide

/-- An index that does not qualify is at `INF` in the scan. -/
theorem selDist_of_not_qual {s : State} {i : SampleIdx} (h : selQualAt s i = false) : selDist s i = infDist := by
  simp [selDist, h]

/-- An index at `INF` in the scan does not qualify, since `MAX_THRESHOLD` is below `INF`. -/
theorem selQualAt_eq_false_of_inf {s : State} {i : SampleIdx} (h : infDist ≤ selDist s i) : selQualAt s i = false := by
  cases hq : selQualAt s i with
  | false => rfl
  | true =>
    have hmax := s.cfg.threshold_le
    have hlt : s.scratch.proj[i.val].toNat < s.cfg.maxThreshold := by
      simp only [selQualAt, qualifies, Bool.and_eq_true, decide_eq_true_eq] at hq
      exact hq.1.2
    have hinf : (65535 : Nat) ≤ s.scratch.proj[i.val].toNat := by
      simpa [selDist, hq, BitVec.le_def, infDist] using h
    omega

/-- The command of the nearest candidate is a legal one (30_encoding.md R91). -/
theorem legalCommand_of_nearestOf {s : State} {best : Dist} {idx : SampleIdx}
    (h : nearestOf (selDist s) 98 best idx) : LegalCommand (encodeCommand idx (selQualAt s idx)) := by
  obtain ⟨hmin, ⟨rfl, rfl⟩ | ⟨hbest, hidx, -, -⟩⟩ := h
  · rw [selQualAt_eq_false_of_inf (hmin 0 (by decide))]
    exact .inl (by decide)
  · have hq : selQualAt s idx = true := by
      by_contra hne
      rw [selDist_of_not_qual (by simpa using hne)] at hidx
      exact absurd hbest (by rw [← hidx]; decide)
    rw [hq]
    refine .inr ?_
    have := idx.isLt
    rw [encodeCommand_fire_toNat]
    omega

/-! ### The frame's outcomes -/

/-- The baseline lowered to the distances of the frame in `FB` (43_calibrator.md R156). -/
def loweredRef (s : State) : Vector Dist 98 := Vector.ofFn fun i => minDist s.ref[i.val] (projOf s)[i.val]

/-- The lowered baseline, finalised (43_calibrator.md R157). -/
def finalisedRef (s : State) : Vector Dist 98 := Vector.ofFn fun i => finalise s.cfg (loweredRef s)[i.val]

theorem loweredRef_toNat (s : State) (i : SampleIdx) :
    (loweredRef s)[i.val].toNat = min s.ref[i.val].toNat (projOf s)[i.val].toNat := by
  rw [loweredRef, Vector.getElem_ofFn, minDist_toNat]

theorem finalisedRef_toNat (s : State) (i : SampleIdx) :
    (finalisedRef s)[i.val].toNat = finNat s.cfg (loweredRef s)[i.val].toNat := by
  rw [finalisedRef, Vector.getElem_ofFn, finalise_toNat]

theorem loweredRef_le (s : State) (i : SampleIdx) : (loweredRef s)[i.val].toNat ≤ 8191 := by
  rw [loweredRef_toNat]
  exact (Nat.min_le_right ..).trans (projOf_le s i)

theorem finalisedRef_le (s : State) (i : SampleIdx) :
    (finalisedRef s)[i.val].toNat ≤ 8191 ∧ (finalisedRef s)[i.val].toNat ≤ s.cfg.maxThreshold := by
  rw [finalisedRef_toNat]
  exact ⟨(finNat_le ..).1.trans (loweredRef_le s i), (finNat_le ..).2⟩

/-- The state of a frame decoded and projected: the selector of a live frame starts here. -/
def projected (s : State) : State :=
  { s with
    scratch := { s.scratch with samp := Vector.ofFn fun i => sampleOfPair (readPair s i), proj := projOf s } }

theorem frameProject_eq_projected (s : State) : frameProject s = projected s := frameProject_eq s

/-- The selector of the frame that ends the warm-up starts from the finalised baseline. -/
def armingSelection (s : State) : State := { projected s with ref := finalisedRef s, fc := s.fc + 1, phase := .armed }

@[simp] theorem projected_cfg (s : State) : (projected s).cfg = s.cfg := by simp only [projected]
@[simp] theorem projected_fc (s : State) : (projected s).fc = s.fc := by simp only [projected]
@[simp] theorem projected_phase (s : State) : (projected s).phase = s.phase := by simp only [projected]
@[simp] theorem projected_ref (s : State) : (projected s).ref = s.ref := by simp only [projected]
@[simp] theorem projected_proj (s : State) : (projected s).scratch.proj = projOf s := by simp only [projected]
@[simp] theorem armingSelection_phase (s : State) : (armingSelection s).phase = .armed := by simp only [armingSelection]

/-- A frame inside the warm-up. -/
theorem frmDispatch_warmup {s : State} (h : s.phase = .warmingUp) (hfc : (s.fc + 1).toNat ≠ s.cfg.warmupFrames) :
    frmDispatch s = { s with ref := loweredRef s, fc := s.fc + 1, scratch := Scratch.clear } := by
  have hcal : frameCalibrate (projected s) = { projected s with ref := loweredRef s, fc := s.fc + 1 } := by
    rw [frameCalibrate_warmup (by rw [projected_phase, h]) (by rwa [projected_fc, projected_cfg])]
    simp only [projected_ref, projected_proj, projected_fc, loweredRef]
  rw [frmDispatch, frameProject_eq_projected, hcal, frameSelect_warmingUp (by rw [projected_phase, h])]
  simp only [dropTransients, projected]

/-- The frame that ends the warm-up. -/
theorem frmDispatch_arming {s : State} (h : s.phase = .warmingUp) (hfc : (s.fc + 1).toNat = s.cfg.warmupFrames) :
    ∃ best idx, nearestOf (selDist (armingSelection s)) 98 best idx ∧ frmDispatch s =
      { s with
        ref := finalisedRef s
        fc := s.fc + 1
        phase := .armed
        cmd := encodeCommand idx (selQualAt (armingSelection s) idx)
        cv := true
        scratch := Scratch.clear } := by
  have hcal : frameCalibrate (projected s) = armingSelection s := by
    rw [frameCalibrate_arming (by rw [projected_phase, h]) (by rwa [projected_fc, projected_cfg])]
    simp only [projected_cfg, projected_ref, projected_proj, projected_fc, armingSelection, finalisedRef, loweredRef,
      Vector.getElem_ofFn]
  obtain ⟨best, idx, heq, hnear⟩ := frameSelect_armed (armingSelection_phase s)
  refine ⟨best, idx, hnear, ?_⟩
  rw [frmDispatch, frameProject_eq_projected, hcal, heq]
  simp only [dropTransients, armingSelection, projected]

/-- A frame while ARMED. -/
theorem frmDispatch_live {s : State} (h : s.phase = .armed) :
    ∃ best idx, nearestOf (selDist (projected s)) 98 best idx ∧ frmDispatch s =
      { s with
        cmd := encodeCommand idx (selQualAt (projected s) idx)
        cv := true
        scratch := Scratch.clear } := by
  have hp : (projected s).phase = .armed := by rw [projected_phase, h]
  obtain ⟨best, idx, heq, hnear⟩ := frameSelect_armed hp
  refine ⟨best, idx, hnear, ?_⟩
  rw [frmDispatch, frameProject_eq_projected, frameCalibrate_armed hp, heq]
  simp only [dropTransients, projected]

/-- What a frame can do, said once: it falls under one of the three rows of 30_encoding.md R88, and a command it
produces is legal. -/
theorem frmDispatch_cases (s : State) :
    (s.phase = .warmingUp ∧ (s.fc + 1).toNat ≠ s.cfg.warmupFrames ∧
      frmDispatch s = { s with ref := loweredRef s, fc := s.fc + 1, scratch := Scratch.clear }) ∨
    (s.phase = .warmingUp ∧ (s.fc + 1).toNat = s.cfg.warmupFrames ∧ ∃ c, LegalCommand c ∧ frmDispatch s =
      { s with
        ref := finalisedRef s, fc := s.fc + 1, phase := .armed, cmd := c, cv := true, scratch := Scratch.clear }) ∨
    (s.phase = .armed ∧ ∃ c, LegalCommand c ∧ frmDispatch s =
      { s with cmd := c, cv := true, scratch := Scratch.clear }) := by
  cases h : s.phase with
  | warmingUp =>
    by_cases hfc : (s.fc + 1).toNat = s.cfg.warmupFrames
    · obtain ⟨best, idx, hnear, heq⟩ := frmDispatch_arming h hfc
      exact .inr (.inl ⟨rfl, hfc, _, legalCommand_of_nearestOf hnear, heq⟩)
    · exact .inl ⟨rfl, hfc, h ▸ frmDispatch_warmup h hfc⟩
  | armed =>
    obtain ⟨best, idx, hnear, heq⟩ := frmDispatch_live h
    exact .inr (.inr ⟨rfl, _, legalCommand_of_nearestOf hnear, h ▸ heq⟩)

/-! ### The fields a frame leaves alone -/

section
variable (s : State)

@[simp] theorem frmDispatch_cfg : (frmDispatch s).cfg = s.cfg := by rw [frmDispatch_frame]
@[simp] theorem frmDispatch_mp : (frmDispatch s).mp = s.mp := by rw [frmDispatch_frame]
@[simp] theorem frmDispatch_pcnt : (frmDispatch s).pcnt = s.pcnt := by rw [frmDispatch_frame]
@[simp] theorem frmDispatch_fb : (frmDispatch s).fb = s.fb := by rw [frmDispatch_frame]
@[simp] theorem frmDispatch_halted : (frmDispatch s).halted = s.halted := by rw [frmDispatch_frame]
@[simp] theorem frmDispatch_err : (frmDispatch s).err = s.err := by rw [frmDispatch_frame]
@[simp] theorem frmDispatch_ecause : (frmDispatch s).ecause = s.ecause := by rw [frmDispatch_frame]
@[simp] theorem frmDispatch_scratch : (frmDispatch s).scratch = Scratch.clear := by rw [frmDispatch_frame]
@[simp] theorem frmDispatch_offers : (frmDispatch s).offers = s.offers := by rw [frmDispatch_frame]

end

/-- Once ARMED a frame leaves the baseline (43_calibrator.md R159). -/
theorem frmDispatch_ref_armed {s : State} (h : s.phase = .armed) : (frmDispatch s).ref = s.ref := by
  obtain ⟨best, idx, -, heq⟩ := frmDispatch_live h
  rw [heq]

end Sys2Proof.Machine
end

section
/-! SUPPORT. The invariant of every reachable state (spec/10_state.md R37): one lemma per update of the state, then
every event, then the step. -/

namespace Sys2Proof.Machine

namespace State.Inv

variable {s : State}

/-- What is on offer is no part of the invariant. -/
theorem with_offers (h : s.Inv) (l : List InEvent) : ({ s with offers := l } : State).Inv :=
  ⟨h.hunting, h.counted, h.armed_iff, h.fresh, h.folded, h.frozen, h.pending, h.halted_iff, h.codes, h.command,
    h.transients, h.buffer⟩

/-- The start of a session (70_reset_and_hazards.md R260), whatever the buffer holds. -/
theorem resetState (hfb : s.fb.wf = true) : (resetState s).Inv where
  hunting _ := rfl
  counted := Nat.zero_le _
  armed_iff := by
    have hpos := s.cfg.warmup_pos
    simp only [resetState_phase, resetState_fc, resetState_cfg, reduceCtorEq, false_iff]
    exact Nat.ne_of_lt hpos
  fresh _ i := by simp
  folded h := absurd rfl h
  frozen h := by simp at h
  pending h := by simp at h
  halted_iff := by simp
  codes := .inl ⟨rfl, rfl⟩
  command := .inl rfl
  transients := rfl
  buffer := hfb

/-- The synchronizer's registers may move while no command is pending. -/
theorem with_sync (h : s.Inv) (hcv : s.cv = false) {mp : MatchPos} {pcnt : FbAddr} (hunting : mp ≠ 6 → pcnt = 0) :
    ({ s with mp := mp, pcnt := pcnt } : State).Inv :=
  { h with hunting := hunting, pending := fun hv => by simp [hcv] at hv }

theorem huntByte (h : s.Inv) (hcv : s.cv = false) (hmp : s.mp ≠ 6) (b : Byte) : (huntByte b s).Inv := by
  refine h.with_sync hcv fun hne => ?_
  rw [if_neg hne]
  exact h.hunting hmp

theorem writeByte (h : s.Inv) (a : FbAddr) (b : Byte) : (writeByte a b s).Inv :=
  { h with buffer := writeByte_wf a b h.buffer }

theorem payPut (h : s.Inv) (hcv : s.cv = false) (hmp : s.mp = 6) (b : Byte) :
    ({ Machine.writeByte s.pcnt b s with pcnt := nextAddr s.pcnt } : State).Inv :=
  (h.writeByte s.pcnt b).with_sync hcv fun hne => absurd hmp hne

theorem completeFrame (h : s.Inv) (hcv : s.cv = false) (b : Byte) : (completeFrame b s).Inv :=
  (h.writeByte 195 b).with_sync hcv fun _ => rfl

/-- The sink's answer withdraws the command (45_pipeline.md R204). -/
theorem without_command (h : s.Inv) : ({ s with cv := false } : State).Inv :=
  { h with pending := fun hv => by simp at hv }

/-- An error with one of the codes of 60_exceptions.md R221, taken while no command is pending. -/
theorem raise (h : s.Inv) (hcv : s.cv = false) {e : ErrorKind} {cause : BitVec 2}
    (hcause : cause = 0 ↔ e = .streamClosed) : (raise e cause s).Inv where
  __ := h
  pending hv := by simp [hcv] at hv
  halted_iff := by cases e <;> simp [ErrorKind.code]
  codes := by
    cases e with
    | streamClosed => exact .inr (.inl ⟨rfl, hcause.mpr rfl⟩)
    | ioFailure => exact .inr (.inr ⟨rfl, fun h0 => by cases hcause.mp h0⟩)

/-! ### One frame -/

/-- A frame counted while WARMING_UP does not wrap the count (10_state.md R27). -/
theorem count_succ (h : s.Inv) (hp : s.phase = .warmingUp) :
    (s.fc + 1).toNat = s.fc.toNat + 1 ∧ s.fc.toNat < s.cfg.warmupFrames := by
  have hle := s.cfg.warmup_le
  have hcount := h.counted
  have hne : s.fc.toNat ≠ s.cfg.warmupFrames := fun e => by
    have := h.armed_iff.mpr e
    simp [hp] at this
  have hone : (1 : BitVec 8).toNat = 1 := rfl
  rw [BitVec.toNat_add, hone]
  omega

theorem count_succ_ne_zero (h : s.Inv) (hp : s.phase = .warmingUp) : s.fc + 1 ≠ 0 := fun e => by
  have hsucc := (h.count_succ hp).1
  rw [e] at hsucc
  simp at hsucc

/-- A frame processed with the synchronizer back at its start. -/
theorem frmDispatch (h : s.Inv) (hh : s.halted = false) (hcv : s.cv = false) (hmp : s.mp = 0) :
    (frmDispatch s).Inv := by
  rcases frmDispatch_cases s with ⟨hp, hfc, heq⟩ | ⟨hp, hfc, c, hc, heq⟩ | ⟨hp, c, hc, heq⟩ <;> rw [heq]
  · obtain ⟨hsucc, hlt⟩ := h.count_succ hp
    exact { h with
      counted := hsucc.trans_le hlt
      armed_iff := ⟨fun ha => by simp [hp] at ha, fun e => absurd e hfc⟩
      fresh := fun h0 => absurd h0 (h.count_succ_ne_zero hp)
      folded := fun _ => loweredRef_le s
      frozen := fun ha => by simp [hp] at ha
      pending := fun hv => by simp [hcv] at hv
      transients := rfl }
  · exact { h with
      counted := hfc.le
      armed_iff := ⟨fun _ => hfc, fun _ => rfl⟩
      fresh := fun h0 => absurd h0 (h.count_succ_ne_zero hp)
      folded := fun _ i => (finalisedRef_le s i).1
      frozen := fun _ i => (finalisedRef_le s i).2
      pending := fun _ => ⟨rfl, hh, hmp⟩
      command := hc
      transients := rfl }
  · exact { h with
      pending := fun _ => ⟨hp, hh, hmp⟩
      command := hc
      transients := rfl }

/-! ### Every event -/

theorem byte (h : s.Inv) (hs : SourceAwaited s) (b : Byte) : (advance s (.byte b)).Inv := by
  have ⟨hh, hcv⟩ := hs
  by_cases hmp : s.mp = 6
  · by_cases hp : s.pcnt = 195
    · rw [advance_byte_last b hs hmp hp]
      exact (h.completeFrame hcv b).frmDispatch hh hcv rfl
    · rw [advance_byte_put b hs hmp hp]
      exact h.payPut hcv hmp b
  · rw [advance_byte_hunting b hs hmp]
    exact h.huntByte hcv hmp b

theorem eos (h : s.Inv) (hs : SourceAwaited s) : (advance s .eos).Inv := by
  rw [advance_eos hs]
  split
  · exact h.raise hs.2 (by decide)
  · exact h.raise hs.2 (by decide)

/-- Every event keeps the invariant, admitted or not. -/
theorem advance (h : s.Inv) (e : InEvent) : (advance s e).Inv := by
  cases ha : admits s e with
  | false => rwa [advance_held ha]
  | true =>
    cases e with
    | byte b => exact h.byte ((awaitsSource_iff s).mp ha) b
    | eos => exact h.eos ((awaitsSource_iff s).mp ha)
    | ioErr =>
      have hs := (awaitsSource_iff s).mp ha
      rw [advance_ioErr hs]
      exact h.raise hs.2 (by decide)
    | sinkAck =>
      obtain ⟨hh, hcv⟩ := (awaitsSink_iff s).mp ha
      rw [advance_sinkAck hh hcv]
      exact h.without_command
    | sinkFail =>
      rw [advance_sinkFail ((awaitsSink_iff s).mp ha)]
      exact h.without_command.raise rfl (by decide)
    | reset =>
      rw [advance_reset]
      exact resetState h.buffer

end State.Inv

/-! ### The obligations -/

/-- Settles O55: a step waits or is one event, and every event keeps the invariant. -/
theorem invariantKeptByStep : Obligations.InvariantKeptByStep := by
  intro s t h hstep
  rcases step_advance hstep with rfl | ⟨e, rest, -, -, rfl⟩
  · exact h
  · exact (h.with_offers rest).advance e

/-- Settles O54: the launch state is the start of a session with an empty buffer. -/
theorem invariantAtLaunch : Obligations.InvariantAtLaunch := fun cfg offers =>
  State.Inv.resetState (s := { launchState cfg with offers := offers }) rfl

end Sys2Proof.Machine
end

section
/-! SUPPORT. Whole-machine rules: who writes the configuration, the baseline and the sequencing registers
(spec/10_state.md R24, R26, R31), the launch state (R36), and the halt (spec/60_exceptions.md R230). -/

namespace Sys2Proof.Machine

/-! ### The two stages whose definition hides their frame -/

section
variable (i : SampleIdx) (s : State)

theorem selArgmin_frame : selArgmin s = { s with scratch := (selArgmin s).scratch } := by
  obtain ⟨best, idx, heq, -⟩ := selArgmin_spec s
  rw [heq]

theorem calFin_frame : calFin i s = { s with ref := (calFin i s).ref, phase := (calFin i s).phase } := by
  unfold calFin
  split <;> rfl

@[simp] theorem selArgmin_cfg : (selArgmin s).cfg = s.cfg := by rw [selArgmin_frame]
@[simp] theorem selArgmin_mp : (selArgmin s).mp = s.mp := by rw [selArgmin_frame]
@[simp] theorem selArgmin_pcnt : (selArgmin s).pcnt = s.pcnt := by rw [selArgmin_frame]
@[simp] theorem selArgmin_ref : (selArgmin s).ref = s.ref := by rw [selArgmin_frame]

@[simp] theorem calFin_cfg : (calFin i s).cfg = s.cfg := by rw [calFin_frame]
@[simp] theorem calFin_mp : (calFin i s).mp = s.mp := by rw [calFin_frame]
@[simp] theorem calFin_pcnt : (calFin i s).pcnt = s.pcnt := by rw [calFin_frame]

end

/-! ### The configuration -/

@[simp] theorem effectOf_cfg (i : Instr) (s : State) : (effectOf i s).cfg = s.cfg := by
  cases i with
  | payLast b => simp only [effectOf, frmDispatch_cfg, completeFrame_cfg]
  | frmDispatch => exact frmDispatch_cfg s
  | selArgmin => exact selArgmin_cfg s
  | calFin j => exact calFin_cfg j s
  | _ => rfl

@[simp] theorem advance_cfg (s : State) (e : InEvent) : (advance s e).cfg = s.cfg := by
  cases h : admits s e with
  | false => rw [advance_held h]
  | true => rw [advance_admitted h, effectOf_cfg]

/-- Settles O49: no effect writes the configuration, and a step is a wait or one event. -/
theorem configurationNeverWritten : Obligations.ConfigurationNeverWritten := by
  refine ⟨fun i s t h => ?_, fun s t h => ?_⟩
  · obtain ⟨-, rfl⟩ := exec_next_iff.mp h
    exact effectOf_cfg i s
  · rcases step_advance h with rfl | ⟨e, rest, -, -, rfl⟩
    · rfl
    · exact advance_cfg ..

/-! ### The baseline -/

/-- A frame that moves the baseline is one of the warm-up (10_state.md R26). -/
theorem warmingUp_of_frmDispatch_ref_ne {s : State} (h : (frmDispatch s).ref ≠ s.ref) : s.phase = .warmingUp := by
  cases hp : s.phase with
  | warmingUp => rfl
  | armed => exact absurd (frmDispatch_ref_armed hp) h

/-- Settles O51: every other effect leaves the baseline, and the calibrator's are selected while WARMING_UP. -/
theorem baselineWriters : Obligations.BaselineWriters := by
  intro i s t h hne
  obtain ⟨hsel, rfl⟩ := exec_next_iff.mp h
  cases i with
  | reset => exact .inl rfl
  | calMin j => exact .inr ⟨hsel.2, .inr (.inr (.inl ⟨j, rfl⟩))⟩
  | calFin j => exact .inr ⟨hsel.2.1, .inr (.inr (.inr ⟨j, rfl⟩))⟩
  | frmDispatch => exact .inr ⟨warmingUp_of_frmDispatch_ref_ne hne, .inl rfl⟩
  | payLast b =>
    exact .inr ⟨warmingUp_of_frmDispatch_ref_ne (s := completeFrame b s) hne, .inr (.inl ⟨b, rfl⟩)⟩
  | selArgmin => exact absurd (selArgmin_ref s) hne
  | _ => exact absurd rfl hne

/-! ### The sequencing registers -/

theorem nextAddr_val {a : FbAddr} (h : a.val < 195) : (nextAddr a).val = a.val + 1 := by
  have hone : (1 : FbAddr).val = 1 := rfl
  rw [nextAddr, Fin.val_add, hone]
  omega

/-- Settles O52: each row's registers before come from its selection, those after from its effect. -/
theorem sequencingRegisters : Obligations.SequencingRegisters := by
  intro i s t hunting h
  obtain ⟨hsel, rfl⟩ := exec_next_iff.mp h
  have idle : ∀ k : MatchPos, s.mp = k → k ≠ 6 → s.pcnt = 0 := fun k hk hne => hunting (hk ▸ hne)
  cases i with
  | synSkip b =>
    obtain ⟨-, hmp, -⟩ := hsel
    exact ⟨hmp, rfl, idle 0 hmp (by decide)⟩
  | synAdv0 => exact ⟨by rw [hsel.2]; rfl, idle 0 hsel.2 (by decide)⟩
  | synAdv1 => exact ⟨by rw [hsel.2]; rfl, idle 1 hsel.2 (by decide)⟩
  | synAdv2 => exact ⟨by rw [hsel.2]; rfl, idle 2 hsel.2 (by decide)⟩
  | synAdv3 => exact ⟨by rw [hsel.2]; rfl, idle 3 hsel.2 (by decide)⟩
  | synAdv4 => exact ⟨by rw [hsel.2]; rfl, idle 4 hsel.2 (by decide)⟩
  | synLock => exact ⟨hsel.2, rfl, rfl⟩
  | synDrop b =>
    obtain ⟨-, hlo, hhi, -⟩ := hsel
    exact ⟨hlo, hhi, rfl, hunting (MatchPos.ne_six_iff.mpr hhi)⟩
  | payPut b =>
    obtain ⟨-, hmp, hp⟩ := hsel
    exact ⟨hmp, hmp, nextAddr_val hp⟩
  | payLast b =>
    obtain ⟨-, hmp, hp⟩ := hsel
    exact ⟨hmp, Fin.ext hp, frmDispatch_mp _, frmDispatch_pcnt _⟩
  | reset => exact ⟨rfl, rfl⟩
  | frmDispatch => exact ⟨frmDispatch_mp s, frmDispatch_pcnt s⟩
  | selArgmin => exact ⟨selArgmin_mp s, selArgmin_pcnt s⟩
  | calFin j => exact ⟨calFin_mp j s, calFin_pcnt j s⟩
  | decSample | prjProject | calMin | selQual | selFire | cmdEmit | snkAck | errEos | errShort | errIo | snkFail =>
    exact ⟨rfl, rfl⟩

/-! ### The launch state -/

/-- Settles O48: the launch state's fields are the reset table's, and the status outputs copy them. -/
theorem launchStateValues : Obligations.LaunchStateValues := fun _ =>
  ⟨rfl, rfl, rfl, rfl, fun _ => Vector.getElem_replicate _, rfl, rfl, rfl, rfl, rfl, rfl⟩

/-! ### The halt -/

/-- An event that is not admitted adds nothing to the output. -/
theorem eventOutput_held {s : State} {e : InEvent} (h : admits s e = false) : eventOutput s e = [] := by
  rw [eventOutput, advance_held h, if_neg]
  rintro ⟨h0, h1⟩
  rw [h0] at h1
  cases h1

/-- A program none of whose events is admitted where it starts produces nothing and changes nothing. -/
theorem runProgram_held {s : State} {program : List InEvent} (h : ∀ e ∈ program, admits s e = false) :
    runProgram s program = { commands := [], final := s } := by
  induction program with
  | nil => rfl
  | cons e es ih =>
    have he : admits s e = false := h e (List.mem_cons_self ..)
    have hes := ih fun x hx => h x (List.mem_cons_of_mem _ hx)
    simp only [runProgram, ProgramResult.mk.injEq] at hes ⊢
    rw [runOutput_cons, eventRun_cons, advance_held he, eventOutput_held he]
    exact hes

/-- While halted, a list of events without `Reset` holds none that is admitted. -/
theorem admits_of_halted_of_mem {s : State} {l : List InEvent} (hh : s.halted = true) (hl : .reset ∉ l) :
    ∀ e ∈ l, admits s e = false :=
  fun _ he => admits_of_halted hh fun h => hl (h ▸ he)

/-- Settles O46: the halt admits `Reset` alone, and RESET alone is selected there. -/
theorem haltAdmitsOnlyReset : Obligations.HaltAdmitsOnlyReset := by
  refine ⟨fun s e hh he => ?_, fun s hh hr => ?_, fun i s t hh h => ?_, fun s program hh hr => ?_⟩
  · have held := admits_of_halted hh he
    exact ⟨held, eventStep_held held⟩
  · have hnone : nextOffer s = none := takeAdmitted_none.mpr (admits_of_halted_of_mem hh hr)
    rw [step, hnone]
  · by_contra hi
    have hrun := (exec_next_iff.mp h).1.not_halted hi
    rw [hh] at hrun
    cases hrun
  · exact runProgram_held (admits_of_halted_of_mem hh hr)

end Sys2Proof.Machine
end

section
/-! SUPPORT. Two runs that differ in the frame buffer alone (spec/10_state.md R25): what is stored of the payload in
progress agrees, so that the complete frames are the same. -/

namespace Sys2Proof.Machine

/-- Nothing is listed outside `FB`. -/
theorem Memory.lookup_of_wf {m : Memory} (h : m.wf = true) {a : Nat} (ha : 196 ≤ a) : m.lookup a = fbUnwritten := by
  simp only [Memory.wf, Bool.and_eq_true, List.all_eq_true, decide_eq_true_eq] at h
  obtain ⟨-, hall⟩ := h
  induction m with
  | nil => rfl
  | cons c rest ih =>
    have hlt := (hall c (List.mem_cons_self ..)).1
    have hne : c.1 ≠ a := by omega
    rw [Memory.lookup, if_neg hne]
    exact ih fun x hx => hall x (List.mem_cons_of_mem _ hx)

theorem Memory.ne_unwritten_of_wf {m : Memory} (h : m.wf = true) {c : Host.Cell} (hc : c ∈ m) : c.2 ≠ fbUnwritten := by
  simp only [Memory.wf, Bool.and_eq_true, List.all_eq_true, bne_iff_ne] at h
  exact (h.2 c hc).2

/-- Two canonical buffers that read alike at every address are the same list. -/
theorem Memory.ext_of_wf {m n : Memory} (hm : m.wf = true) (hn : n.wf = true)
    (h : ∀ a : FbAddr, m.lookup a.val = n.lookup a.val) : m = n := by
  refine Memory.ext_of_lookup (Memory.risesFrom_of_wf hm) (Memory.risesFrom_of_wf hn)
    (fun _ => Memory.ne_unwritten_of_wf hm) (fun _ => Memory.ne_unwritten_of_wf hn) fun a => ?_
  by_cases ha : a < 196
  · exact h ⟨a, ha⟩
  · rw [Memory.lookup_of_wf hm (by omega), Memory.lookup_of_wf hn (by omega)]

/-- Two writes of one byte at one place keep an agreement below the place, and extend it to the place itself. -/
theorem Memory.store_agree {m n : Memory} (hm : m.wf = true) (hn : n.wf = true) {p a : FbAddr} (b : Byte)
    (h : ∀ a : FbAddr, a.val < p.val → m.lookup a.val = n.lookup a.val) (ha : a.val ≤ p.val) :
    (m.store p.val b).lookup a.val = (n.store p.val b).lookup a.val := by
  by_cases hap : a.val = p.val
  · rw [hap, Memory.lookup_store_same m _ b (Memory.risesFrom_of_wf hm),
      Memory.lookup_store_same n _ b (Memory.risesFrom_of_wf hn)]
  · rw [Memory.lookup_store_other m b hap, Memory.lookup_store_other n b hap]
    exact h a (by omega)

/-- The buffer `m` can stand in for the buffer of `s`: both are canonical, and they agree on the part of a payload that
is already stored. While hunting there is no such part. -/
structure BufferAgrees (s : State) (m : Memory) : Prop where
  canonical : s.fb.wf = true
  canonical' : m.wf = true
  stored : s.mp = 6 → ∀ a : FbAddr, a.val < s.pcnt.val → s.fb.lookup a.val = m.lookup a.val

namespace BufferAgrees

variable {s : State} {m : Memory}

/-- An event that leaves the buffer, and leaves the payload in progress or ends in no payload. -/
theorem of_kept {t : State} (h : BufferAgrees s m) (hfb : t.fb = s.fb)
    (hpay : t.mp = 6 → t.pcnt = 0 ∨ (s.mp = 6 ∧ t.pcnt = s.pcnt)) : BufferAgrees t m where
  canonical := hfb ▸ h.canonical
  canonical' := h.canonical'
  stored hmp a ha := by
    rw [hfb]
    rcases hpay hmp with h0 | ⟨h6, hp⟩
    · rw [h0] at ha
      exact absurd ha (Nat.not_lt_zero _)
    · exact h.stored h6 a (hp ▸ ha)

/-- Both buffers after the byte that PAY.PUT stores. -/
theorem put (h : BufferAgrees s m) (hmp : s.mp = 6) (hp : s.pcnt.val < 195) (b : Byte) :
    BufferAgrees { writeByte s.pcnt b s with pcnt := nextAddr s.pcnt } (m.store s.pcnt.val b) where
  canonical := writeByte_wf s.pcnt b h.canonical
  canonical' := Memory.wf_store m s.pcnt b h.canonical'
  stored _ a ha := by
    have hle : a.val ≤ s.pcnt.val := Nat.le_of_lt_succ (ha.trans_eq (nextAddr_val hp))
    exact Memory.store_agree h.canonical h.canonical' b (h.stored hmp) hle

/-- The last payload byte makes the two buffers one. -/
theorem complete (h : BufferAgrees s m) (hmp : s.mp = 6) (hp : s.pcnt = 195) (b : Byte) :
    completeFrame b { s with fb := m } = completeFrame b s := by
  have hstored := h.stored hmp
  rw [hp] at hstored
  have hfb : m.store 195 b = s.fb.store 195 b := by
    refine Memory.ext_of_wf (Memory.wf_store m 195 b h.canonical') (Memory.wf_store s.fb 195 b h.canonical) fun a => ?_
    exact (Memory.store_agree h.canonical h.canonical' (p := 195) b hstored (Nat.le_of_lt_succ a.isLt)).symm
  show { completeFrame b s with fb := m.store 195 b } = completeFrame b s
  rw [hfb]
  rfl

/-- A byte, from the two buffers. -/
theorem byte (h : BufferAgrees s m) (hs : SourceAwaited s) (b : Byte) : ∃ m',
    advance { s with fb := m } (.byte b) = { advance s (.byte b) with fb := m' } ∧
      BufferAgrees (advance s (.byte b)) m' := by
  have hs' : SourceAwaited { s with fb := m } := hs
  by_cases hmp : s.mp = 6
  · by_cases hp : s.pcnt = 195
    · refine ⟨(advance s (.byte b)).fb, ?_, ?_⟩
      · rw [advance_byte_last b hs' hmp hp, advance_byte_last b hs hmp hp, h.complete hmp hp]
      · have hwf : (advance s (.byte b)).fb.wf = true := by
          rw [advance_byte_last b hs hmp hp, frmDispatch_fb]
          exact Memory.wf_store s.fb 195 b h.canonical
        exact ⟨hwf, hwf, fun _ _ _ => rfl⟩
    · refine ⟨m.store s.pcnt.val b, ?_, ?_⟩
      · rw [advance_byte_put b hs' hmp hp, advance_byte_put b hs hmp hp]
        rfl
      · rw [advance_byte_put b hs hmp hp]
        exact h.put hmp (FbAddr.ne_last_iff.mp hp) b
  · refine ⟨m, ?_, ?_⟩
    · rw [advance_byte_hunting b hs' hmp, advance_byte_hunting b hs hmp]
      rfl
    · rw [advance_byte_hunting b hs hmp]
      exact h.of_kept rfl fun hnext => .inl (if_pos hnext)

/-- One event, admitted or not: the two runs differ in the buffer alone again, and the buffers agree again. -/
theorem advance (h : BufferAgrees s m) (e : InEvent) : ∃ m',
    advance { s with fb := m } e = { advance s e with fb := m' } ∧ BufferAgrees (advance s e) m' := by
  cases ha : admits s e with
  | false =>
    rw [advance_held ha, advance_held ((admits_fb s m e).trans ha)]
    exact ⟨m, rfl, h⟩
  | true =>
    cases e with
    | byte b => exact h.byte ((awaitsSource_iff s).mp ha) b
    | eos =>
      have hs := (awaitsSource_iff s).mp ha
      have hs' : SourceAwaited { s with fb := m } := hs
      rw [advance_eos hs, advance_eos hs']
      refine ⟨m, ?_, ?_⟩
      · split <;> rfl
      · split
        · exact h.of_kept rfl fun hmp => .inr ⟨hmp, rfl⟩
        · exact h.of_kept rfl fun hmp => .inr ⟨hmp, rfl⟩
    | ioErr =>
      have hs := (awaitsSource_iff s).mp ha
      have hs' : SourceAwaited { s with fb := m } := hs
      rw [advance_ioErr hs, advance_ioErr hs']
      exact ⟨m, rfl, h.of_kept rfl fun hmp => .inr ⟨hmp, rfl⟩⟩
    | sinkAck =>
      obtain ⟨hh, hcv⟩ := (awaitsSink_iff s).mp ha
      rw [advance_sinkAck hh hcv, advance_sinkAck (s := { s with fb := m }) hh hcv]
      exact ⟨m, rfl, h.of_kept rfl fun hmp => .inr ⟨hmp, rfl⟩⟩
    | sinkFail =>
      have hs := (awaitsSink_iff s).mp ha
      have hs' : SinkAwaited { s with fb := m } := hs
      rw [advance_sinkFail hs, advance_sinkFail hs']
      exact ⟨m, rfl, h.of_kept rfl fun hmp => .inr ⟨hmp, rfl⟩⟩
    | reset =>
      rw [advance_reset, advance_reset]
      exact ⟨m, rfl, h.of_kept rfl fun _ => .inl rfl⟩

/-- A whole program: the same output, and final states that differ in the buffer alone. -/
theorem run (h : BufferAgrees s m) (program : List InEvent) :
    runOutput s program = runOutput { s with fb := m } program ∧
      SameButBuffer (eventRun s program) (eventRun { s with fb := m } program) := by
  induction program generalizing s m with
  | nil => exact ⟨rfl, rfl⟩
  | cons e es ih =>
    obtain ⟨m', heq, hnext⟩ := h.advance e
    obtain ⟨hout, hfinal⟩ := ih hnext
    have hevent : eventOutput { s with fb := m } e = eventOutput s e := by
      simp only [eventOutput, heq]
    rw [runOutput_cons, runOutput_cons, eventRun_cons, eventRun_cons, heq, hevent, hout]
    exact ⟨rfl, hfinal⟩

end BufferAgrees

/-- Settles O56: while hunting no payload is stored, so the two buffers agree on what is stored. -/
theorem oldBufferUnobservable : Obligations.OldBufferUnobservable := by
  intro s s' program hsame hwf hwf' hmp
  have hagree : BufferAgrees s s'.fb := ⟨hwf, hwf', fun h6 => absurd h6 hmp⟩
  have hrun := hagree.run program
  rwa [hsame] at hrun

end Sys2Proof.Machine
end

section
/-! SUPPORT. A pending command (spec/20_memory.md R60, item 3; spec/45_pipeline.md R197, R203): what the block can consume
meanwhile, and what that makes of the state. -/

namespace Sys2Proof.Machine

/-- While a command is pending no event of the byte source is admitted (45_pipeline.md R197). -/
theorem admits_source_of_pending {s : State} {e : InEvent} (hcv : s.cv = true) (he : fromSource e = true) :
    admits s e = false := by
  cases e with
  | byte | eos | ioErr => simp [admits, awaitsSource, hcv]
  | sinkAck | sinkFail | reset => cases he

/-- What an admitted event makes of a pending command: the sink takes it, the sink fails, or `Reset` withdraws it. -/
theorem advance_pending_cases {s : State} {e : InEvent} (hcv : s.cv = true) (ha : admits s e = true) :
    (e = .sinkAck ∧ advance s e = { s with cv := false }) ∨
    (e = .sinkFail ∧ advance s e = raise .ioFailure causeWrite { s with cv := false }) ∨
    (e = .reset ∧ advance s e = resetState s) := by
  cases e with
  | byte | eos | ioErr =>
    rw [admits_source_of_pending hcv rfl] at ha
    cases ha
  | sinkAck => exact .inl ⟨rfl, advance_sinkAck ((awaitsSink_iff s).mp ha).1 hcv⟩
  | sinkFail => exact .inr (.inl ⟨rfl, advance_sinkFail ((awaitsSink_iff s).mp ha)⟩)
  | reset => exact .inr (.inr ⟨rfl, advance_reset⟩)

/-- The event that ends the hand-off is none of the byte source, leaves the offers alone, and leaves the value of `cmd`
too unless it is `Reset`. -/
theorem advance_pending {s : State} {e : InEvent} (hcv : s.cv = true) (ha : admits s e = true) :
    fromSource e = false ∧ (advance s e).offers = s.offers ∧ (advance s e).cv = false ∧
      ((advance s e).cmd = s.cmd ∨ e = .reset) := by
  rcases advance_pending_cases hcv ha with ⟨rfl, h⟩ | ⟨rfl, h⟩ | ⟨rfl, h⟩
  · rw [h]
    exact ⟨rfl, rfl, rfl, .inl rfl⟩
  · rw [h]
    exact ⟨rfl, rfl, rfl, .inl rfl⟩
  · rw [h]
    exact ⟨rfl, rfl, rfl, .inr rfl⟩

/-- A step waits, or it is one event-level step that finds every other offer in its place. -/
theorem step_advance_split {s t : State} (h : step s = .next t) :
    t = s ∨ ∃ e before after, s.offers = before ++ e :: after ∧ admits s e = true ∧
      t = advance { s with offers := before ++ after } e := by
  rcases step_cases s with ⟨-, hstep⟩ | ⟨e, before, after, hoffers, -, hadm, hstep⟩
  · rw [hstep] at h
    exact .inl (Host.Outcome.next.inj h).symm
  · have hadm' : admits { s with offers := before ++ after } e = true := (admit_offers ..).trans hadm
    refine .inr ⟨e, before, after, hoffers, hadm, ?_⟩
    exact (advance_of_eventStep ((eventStep_admitted hadm').trans (hstep.symm.trans h))).symm

/-- Settles O53: a step that consumes an event consumes none of the byte source; the command is no longer pending after
it, and its value differs only if the event was `Reset`. -/
theorem pendingCommandHoldsSource : Obligations.PendingCommandHoldsSource := by
  intro s t hcv hstep
  rcases step_advance_split hstep with rfl | ⟨e, before, after, hoffers, ha, rfl⟩
  · exact ⟨rfl, fun _ => rfl, fun hne => absurd rfl hne⟩
  · obtain ⟨hsource, hkept, hended, hcmd⟩ :=
      advance_pending (s := { s with offers := before ++ after }) hcv ((admit_offers ..).trans ha)
    refine ⟨?_, fun hpending => ?_, fun hne => ?_⟩
    · simp only [hkept, hoffers, List.filter_append, List.filter_cons, hsource, Bool.false_eq_true, if_false]
    · rw [hended] at hpending
      cases hpending
    · rw [hoffers, hcmd.resolve_left hne]
      exact List.mem_append_right before (List.mem_cons_self ..)

end Sys2Proof.Machine
end

section
/-! SUPPORT. The encodings (spec/30_encoding.md R81 to R91): the signature's bytes, the selection table, the places of a
frame's stages, and the command byte. -/

namespace Sys2Proof.Machine

/-! ### The signature -/

/-- Settles O2: each position of the signature holds one byte, and a locked block stores every byte. -/
theorem bytesComparedWithSignature : Obligations.BytesComparedWithSignature := by
  have sig (k : MatchPos) (c : Byte) (h : sigTable[k.val]? = some c) (b : Byte) : continuesSig k b = true ↔ b = c := by
    rw [continuesSig_iff, h, Option.some_inj, eq_comm]
  refine ⟨sig 0 _ rfl, sig 1 _ rfl, sig 2 _ rfl, sig 3 _ rfl, sig 4 _ rfl, sig 5 _ rfl, fun pcnt b => ?_⟩
  rw [selectByte, if_pos rfl]
  split
  · exact .inr rfl
  · exact .inl rfl

/-- Settles O3: each word is evaluated. -/
theorem tableWordsDecode : Obligations.TableWordsDecode := by
  unfold Obligations.TableWordsDecode
  decide

/-! ### The selection table, row by row -/

theorem selectByte_locked_put {pcnt : FbAddr} (h : pcnt.val < 195) (b : Byte) : selectByte 6 pcnt b = .payPut b := by
  rw [selectByte, if_pos rfl, if_neg (FbAddr.ne_last_iff.mpr h)]

theorem selectByte_advance {mp : MatchPos} {b : Byte} (hmp : mp ≠ 6) (h : continuesSig mp b = true) (pcnt : FbAddr) :
    selectByte mp pcnt b = advanceAt mp := by
  rw [selectByte, if_neg hmp, if_pos h]

theorem selectByte_skip {b : Byte} (h : b ≠ 0x02) (pcnt : FbAddr) : selectByte 0 pcnt b = .synSkip b := by
  rw [selectByte, if_neg (by decide), if_neg (mt (continuesSig_zero b).mp h), if_pos rfl]

theorem selectByte_drop {mp : MatchPos} {b : Byte} (hlo : 1 ≤ mp.val) (hhi : mp.val ≤ 5)
    (h : sigTable[mp.val]? ≠ some b) (pcnt : FbAddr) : selectByte mp pcnt b = .synDrop b := by
  rw [selectByte, if_neg (MatchPos.ne_six_iff.mpr hhi), if_neg (mt (continuesSig_iff mp b).mp h),
    if_neg (MatchPos.ne_zero_iff.mpr hlo)]

/-- Settles O4, row by row. -/
theorem selectionTable : Obligations.SelectionTable := by
  refine ⟨fun pcnt b h => selectByte_skip h pcnt, fun pcnt => ⟨rfl, rfl, rfl, rfl, rfl, rfl⟩,
    fun mp pcnt b hlo hhi h => selectByte_drop hlo hhi h pcnt, fun pcnt b h => selectByte_locked_put h b,
    fun _ => rfl, fun _ => rfl, fun mp pcnt h => ?_, fun _ _ => ⟨rfl, rfl, rfl, rfl⟩⟩
  exact if_neg (MatchPos.ne_zero_iff.mpr h)

/-! ### One row for each byte -/

/-- The six advances, each with its byte of the signature. -/
theorem exists_advanceAt_iff {i : Instr} {b : Byte} :
    (∃ mp : MatchPos, mp ≠ 6 ∧ continuesSig mp b = true ∧ i = advanceAt mp) ↔
      (b = 0x02 ∧ i = .synAdv0) ∨ (b = 0x80 ∧ i = .synAdv1) ∨ (b = 0xCE ∧ i = .synAdv2) ∨
      (b = 0x00 ∧ i = .synAdv3) ∨ (b = 0xB0 ∧ i = .synAdv4) ∨ (b = 0x65 ∧ i = .synLock) := by
  constructor
  · rintro ⟨mp, hmp, hsig, rfl⟩
    rw [continuesSig_iff] at hsig
    rcases MatchPos.eq_of_ne_six hmp with rfl | rfl | rfl | rfl | rfl | rfl <;>
      obtain rfl := Option.some.inj hsig <;> simp [advanceAt]
  · rintro (⟨rfl, rfl⟩ | ⟨rfl, rfl⟩ | ⟨rfl, rfl⟩ | ⟨rfl, rfl⟩ | ⟨rfl, rfl⟩ | ⟨rfl, rfl⟩)
    exacts [⟨0, by decide, rfl, rfl⟩, ⟨1, by decide, rfl, rfl⟩, ⟨2, by decide, rfl, rfl⟩,
      ⟨3, by decide, rfl, rfl⟩, ⟨4, by decide, rfl, rfl⟩, ⟨5, by decide, rfl, rfl⟩]

/-- The rows a byte could select: the four that take any byte, and the advances of which it is the signature byte. -/
theorem mem_rowsForByte {i : Instr} {b : Byte} : i ∈ rowsForByte b ↔
    (i = .synSkip b ∨ i = .synDrop b ∨ i = .payPut b ∨ i = .payLast b) ∨
      ∃ mp : MatchPos, mp ≠ 6 ∧ continuesSig mp b = true ∧ i = advanceAt mp := by
  rw [exists_advanceAt_iff]
  simp [rowsForByte, or_assoc]

theorem mp_of_selected_advanceAt {s : State} {mp : MatchPos} (hmp : mp ≠ 6) (h : Selected (advanceAt mp) s) :
    s.mp = mp := by
  rcases MatchPos.eq_of_ne_six hmp with rfl | rfl | rfl | rfl | rfl | rfl <;> exact h.2

theorem selectByte_mem_rowsForByte (mp : MatchPos) (pcnt : FbAddr) (b : Byte) :
    selectByte mp pcnt b ∈ rowsForByte b := by
  rw [mem_rowsForByte, selectByte]
  split_ifs with hmp _ hsig _
  · exact .inl (.inr (.inr (.inr rfl)))
  · exact .inl (.inr (.inr (.inl rfl)))
  · exact .inr ⟨mp, hmp, hsig, rfl⟩
  · exact .inl (.inl rfl)
  · exact .inl (.inr (.inl rfl))

/-- The conditions of a byte's rows exclude each other: the row whose condition is met is the one the table gives. -/
theorem eq_selectByte_of_selected {i : Instr} {s : State} {b : Byte} (hi : i ∈ rowsForByte b) (h : Selected i s) :
    i = selectByte s.mp s.pcnt b := by
  rcases mem_rowsForByte.mp hi with (rfl | rfl | rfl | rfl) | ⟨mp, hmp, hsig, rfl⟩
  · obtain ⟨-, hmp, hb⟩ := h
    rw [hmp, selectByte_skip hb]
  · obtain ⟨-, hlo, hhi, hb⟩ := h
    rw [selectByte_drop hlo hhi hb]
  · obtain ⟨-, hmp, hp⟩ := h
    rw [hmp, selectByte_locked_put hp]
  · obtain ⟨-, hmp, hp⟩ := h
    rw [hmp, Fin.ext (b := 195) hp]
    rfl
  · rw [mp_of_selected_advanceAt hmp h, selectByte_advance hmp hsig]

/-- Settles O5: the row that `selectByte` gives is met, and no other is. -/
theorem oneOperationPerByte : Obligations.OneOperationPerByte := fun s b hs =>
  ⟨selectByte s.mp s.pcnt b, ⟨selectByte_mem_rowsForByte .., selected_selectByte b hs⟩,
    fun _ ⟨hi, h⟩ => eq_selectByte_of_selected hi h⟩

/-! ### The command byte -/

theorem encodeCommand_noFire_toNat (idx : SampleIdx) : (encodeCommand idx false).toNat = idx.val := by
  revert idx; decide

theorem decodeCommand_encodeCommand (idx : SampleIdx) (fire : Bool) :
    decodeCommand (encodeCommand idx fire) = .ok (fire, idx) := by
  revert idx fire; decide

/-- Settles O7: the byte's value for each fire flag, and the decoder on every byte the encoder writes. -/
theorem commandByteFields : Obligations.CommandByteFields := by
  intro idx fire
  refine ⟨?_, decodeCommand_encodeCommand idx fire⟩
  cases fire with
  | false => exact encodeCommand_noFire_toNat idx
  | true => exact (encodeCommand_fire_toNat idx).trans (Nat.add_comm ..)

/-! ### The places of a frame's stages -/

@[simp] theorem length_eachIdx (f : SampleIdx → Instr) : (eachIdx f).length = 98 := by
  simp [eachIdx]

theorem getElem?_eachIdx (f : SampleIdx → Instr) (i : SampleIdx) : (eachIdx f)[i.val]? = some (f i) := by
  simp [eachIdx]

theorem getElem?_block (f : SampleIdx → Instr) (rest : List Instr) (i : SampleIdx) :
    (eachIdx f ++ rest)[i.val]? = some (f i) := by
  rw [List.getElem?_append_left (by simp), getElem?_eachIdx]

theorem getElem?_afterBlock (f : SampleIdx → Instr) (rest : List Instr) (k : Nat) :
    (eachIdx f ++ rest)[k + 98]? = rest[k]? := by
  rw [List.getElem?_append_right (by simp), length_eachIdx, Nat.add_sub_cancel]

/-- The arming frame's sequence, block after block. -/
theorem frameOps_arming : frameOps .arming = eachIdx .decSample ++ (eachIdx .prjProject ++ (eachIdx .calMin ++
    (eachIdx .calFin ++ (eachIdx .selQual ++ [.selArgmin, .selFire, .cmdEmit])))) := by
  simp only [frameOps, selectorOps, List.append_assoc]

theorem decode_armingStage {i : Instr} {n place : Nat} (hn : n = place + 1)
    (h : (frameOps .arming)[place]? = some i) : decode (.stage .arming n) = .ok i := by
  simp only [decode, hn, List.getElem?_cons_succ, h]

/-- The selector's last three stages stand behind the five blocks. -/
theorem getElem?_frameOps_arming_last (k : Nat) :
    (frameOps .arming)[k + 98 + 98 + 98 + 98 + 98]? = [Instr.selArgmin, .selFire, .cmdEmit][k]? := by
  simp only [frameOps_arming, getElem?_afterBlock]

/-- The byte that SYN.DROP is encoded with does not continue the signature there. -/
theorem continuesSig_dropPosition (b : Byte) : sigTable[(dropPosition b).val]? ≠ some b := by
  unfold dropPosition
  split_ifs with h
  · rw [h]; decide
  · exact fun hb => h (Option.some.inj hb).symm

theorem dropPosition_range (b : Byte) : 1 ≤ (dropPosition b).val ∧ (dropPosition b).val ≤ 5 := by
  unfold dropPosition
  split_ifs <;> decide

/-- Settles O1: an event is read back by its row of the selection table, a stage by its place among the blocks. -/
theorem decodeInvertsEncode : Obligations.DecodeInvertsEncode := by
  intro i hwf
  cases i with
  | synSkip b =>
    have hb : b ≠ 0x02 := by simpa [Instr.wf] using hwf
    exact congrArg Except.ok (selectByte_skip hb 0)
  | synDrop b =>
    obtain ⟨hlo, hhi⟩ := dropPosition_range b
    exact congrArg Except.ok (selectByte_drop hlo hhi (continuesSig_dropPosition b) 0)
  | decSample j =>
    exact decode_armingStage (place := j.val) (by omega) (by simp only [frameOps_arming, getElem?_block])
  | prjProject j =>
    exact decode_armingStage (place := j.val + 98) (by omega)
      (by simp only [frameOps_arming, getElem?_afterBlock, getElem?_block])
  | calMin j =>
    exact decode_armingStage (place := j.val + 98 + 98) (by omega)
      (by simp only [frameOps_arming, getElem?_afterBlock, getElem?_block])
  | calFin j =>
    exact decode_armingStage (place := j.val + 98 + 98 + 98) (by omega)
      (by simp only [frameOps_arming, getElem?_afterBlock, getElem?_block])
  | selQual j =>
    exact decode_armingStage (place := j.val + 98 + 98 + 98 + 98) (by omega)
      (by simp only [frameOps_arming, getElem?_afterBlock, getElem?_block])
  | selArgmin => exact decode_armingStage rfl (getElem?_frameOps_arming_last 0)
  | selFire => exact decode_armingStage rfl (getElem?_frameOps_arming_last 1)
  | cmdEmit => exact decode_armingStage rfl (getElem?_frameOps_arming_last 2)
  | _ => rfl

end Sys2Proof.Machine
end

section
/-! SUPPORT. Where operations run, and frame dispatch as its stage operations (spec/30_encoding.md R88;
spec/45_pipeline.md R200). -/

namespace Sys2Proof.Machine

/-! ### Where operations run -/

theorem exec_not_selected {i : Instr} {s : State} (h : ¬ Selected i s) : exec i s = .refused .notSelected := by
  rw [exec_eq, Bool.eq_false_iff.mpr (mt (conditionOf_iff i s).mp h), whenSelected_false]

/-- Settles O11: a meaning's condition is its operation's selection. -/
theorem operationsRunWhereSelected : Obligations.OperationsRunWhereSelected := fun _ _ =>
  ⟨fun h => ⟨_, exec_selected h⟩, exec_not_selected⟩

/-- Settles O10: a step waits, or it runs an operation that the admitted event selects. -/
theorem stepAlwaysAnswersNext : Obligations.StepAlwaysAnswersNext := by
  intro s
  rcases step_cases s with ⟨-, hstep⟩ | ⟨e, before, after, -, -, hadm, hstep⟩
  · exact ⟨s, hstep⟩
  · have hsel := selected_selectEvent (s := { s with offers := before ++ after }) ((admit_offers ..).trans hadm)
    exact ⟨_, hstep.trans (exec_selected hsel)⟩

/-! ### Lists of operations -/

theorem runOps_cons_selected {i : Instr} {s : State} (h : Selected i s) (rest : List Instr) :
    runOps (i :: rest) s = runOps rest (effectOf i s) := by
  simp only [runOps, exec_selected h]

theorem runOps_append {ops rest : List Instr} {s t : State} (h : runOps ops s = .next t) :
    runOps (ops ++ rest) s = runOps rest t := by
  induction ops generalizing s with
  | nil => rw [Host.Outcome.next.inj h]; rfl
  | cons i ops ih =>
    cases he : exec i s with
    | next u =>
      simp only [runOps, he] at h
      simp only [List.cons_append, runOps, he]
      exact ih h
    | fault r => exact nomatch r
    | refused r => simp [runOps, he] at h

theorem take_succ_eachIdx (f : SampleIdx → Instr) (i : SampleIdx) :
    (eachIdx f).take (i.val + 1) = (eachIdx f).take i.val ++ [f i] := by
  rw [List.take_add_one, getElem?_eachIdx, Option.toList_some]

/-- A stage that is selected at each index of the ascending loop runs as the loop of its effects. -/
theorem runOps_eachIdx {f : SampleIdx → Instr} (g : SampleIdx → State → State)
    (hg : ∀ i t, effectOf (f i) t = g i t) (P : Nat → State → Prop) {s : State} (h0 : P 0 s)
    (hstep : ∀ (i : SampleIdx) (t : State), P i.val t → Selected (f i) t ∧ P (i.val + 1) (g i t)) :
    runOps (eachIdx f) s = .next (forIdx g s) := by
  have ⟨hrun, _⟩ := forIdx_invariant (f := g) (s := s)
    (fun k t => runOps ((eachIdx f).take k) s = .next t ∧ P k t) ⟨rfl, h0⟩ fun i t ⟨hrun, hP⟩ => by
      obtain ⟨hsel, hnext⟩ := hstep i t hP
      refine ⟨?_, hnext⟩
      rw [take_succ_eachIdx, runOps_append hrun, runOps_cons_selected hsel, hg]
      rfl
  rwa [List.take_of_length_le (length_eachIdx f).le] at hrun

/-! ### The stages of one frame -/

/-- The state `u` is `s` with the frame folded into the baseline: still WARMING_UP and not counted yet, so that the
frame's first `if` goes on from `u` with the count. -/
structure LoweredFrom (s u : State) : Prop where
  awaited : SourceAwaited u
  warmingUp : u.phase = .warmingUp
  fc : u.fc = s.fc
  cfg : u.cfg = s.cfg
  calibrate : frameCalibrate s = if warmupDone (countFrame u) then forIdx calFin (countFrame u) else countFrame u

section
variable {s : State}

/-- Decoding and projecting leave the byte source awaited, so that both run at every index. -/
theorem runOps_frameProject (hs : SourceAwaited s) :
    runOps (eachIdx .decSample ++ eachIdx .prjProject) s = .next (frameProject s) := by
  have decoded : runOps (eachIdx .decSample) s = .next (forIdx decSample s) :=
    runOps_eachIdx decSample (fun _ _ => rfl) (fun _ => SourceAwaited) hs fun _ _ h => ⟨h, h⟩
  have hs' : SourceAwaited (forIdx decSample s) := by rw [forIdx_decSample]; exact ⟨hs.1, hs.2⟩
  rw [runOps_append decoded]
  exact runOps_eachIdx prjProject (fun _ _ => rfl) (fun _ => SourceAwaited) hs' fun _ _ h => ⟨h, h⟩

/-- CAL.MIN runs at every index, and moves nothing that the rest of the frame is decided by. -/
theorem runOps_calMin (hs : SourceAwaited s) (hp : s.phase = .warmingUp) :
    ∃ u, runOps (eachIdx .calMin) s = .next u ∧ LoweredFrom s u := by
  refine ⟨forIdx calMin s, ?_, ?_⟩
  · exact runOps_eachIdx calMin (fun _ _ => rfl) (fun _ t => SourceAwaited t ∧ t.phase = .warmingUp) ⟨hs, hp⟩
      fun _ _ h => ⟨h, h⟩
  · have calibrate : frameCalibrate s = _ := if_pos hp
    rw [forIdx_calMin] at calibrate ⊢
    exact ⟨⟨hs.1, hs.2⟩, hp, rfl, rfl, calibrate⟩

/-- CAL.FIN(i) arms the block at the last index only (43_calibrator.md R157). -/
theorem calFin_phase {i : SampleIdx} (hi : i.val + 1 < 98) : (calFin i s).phase = s.phase := by
  rw [calFin, if_neg (by rintro rfl; exact absurd hi (by decide))]
  rfl

/-- CAL.FIN runs at every index: the block stays WARMING_UP until the last one has run. -/
theorem runOps_calFin (hs : SourceAwaited s) (hp : s.phase = .warmingUp) (hfc : s.fc.toNat = s.cfg.warmupFrames) :
    runOps (eachIdx .calFin) s = .next (forIdx calFin s) := by
  refine runOps_eachIdx calFin (fun _ _ => rfl) (fun k t => SourceAwaited t ∧ (k < 98 → t.phase = .warmingUp) ∧
    t.fc.toNat = t.cfg.warmupFrames) ⟨hs, fun _ => hp, hfc⟩ ?_
  rintro i t ⟨hs, hp, hfc⟩
  refine ⟨⟨hs, hp i.isLt, hfc⟩, ?_, fun hi => (calFin_phase hi).trans (hp i.isLt), ?_⟩
  · rw [calFin_frame]; exact hs
  · rw [calFin_frame]; exact hfc

theorem selected_selFire_after_selArgmin (h : Selected .selArgmin s) : Selected .selFire (selArgmin s) := by
  obtain ⟨⟨hh, hcv⟩, hp⟩ := h
  rw [selArgmin_frame]
  exact ⟨⟨hh, hcv⟩, hp⟩

theorem selected_cmdEmit_after_selFire (h : Selected .selFire s) : Selected .cmdEmit (selFire s) := by
  obtain ⟨⟨hh, hcv⟩, hp⟩ := h
  exact ⟨⟨hh, hcv⟩, hp⟩

/-- The selector's stages, one after another, are the frame's second `if` while ARMED. -/
theorem runOps_selectorOps (hs : SourceAwaited s) (hp : s.phase = .armed) :
    runOps selectorOps s = .next (frameSelect s) := by
  have qual : runOps (eachIdx .selQual) s = .next (forIdx selQual s) :=
    runOps_eachIdx selQual (fun _ _ => rfl) (fun _ t => SourceAwaited t ∧ t.phase = .armed) ⟨hs, hp⟩
      fun _ _ h => ⟨h, h⟩
  have hargmin : Selected .selArgmin (forIdx selQual s) := by rw [forIdx_selQual]; exact ⟨⟨hs.1, hs.2⟩, hp⟩
  have hfire := selected_selFire_after_selArgmin hargmin
  have hemit := selected_cmdEmit_after_selFire hfire
  rw [selectorOps, runOps_append qual, frameSelect, if_pos hp]
  simp only [runOps, exec_selected hargmin, exec_selected hfire, exec_selected hemit, effectOf]

/-! ### The rows of frames -/

theorem frameKind_live_iff : frameKind s = .live ↔ s.phase = .armed := by
  unfold frameKind
  split_ifs <;> simp [*]

theorem frameKind_arming_iff :
    frameKind s = .arming ↔ s.phase = .warmingUp ∧ (s.fc + 1).toNat = s.cfg.warmupFrames := by
  unfold frameKind
  cases hp : s.phase <;> simp

theorem frameKind_warmup_iff :
    frameKind s = .warmup ↔ s.phase = .warmingUp ∧ (s.fc + 1).toNat ≠ s.cfg.warmupFrames := by
  unfold frameKind
  cases hp : s.phase <;> simp

theorem sourceAwaited_projected (hs : SourceAwaited s) : SourceAwaited (projected s) := by
  simpa only [SourceAwaited, projected] using hs

/-- The first three blocks while WARMING_UP. -/
theorem runOps_frameOps_warmup (hs : SourceAwaited s) (hp : s.phase = .warmingUp) :
    ∃ u, runOps (frameOps .warmup) s = .next u ∧ LoweredFrom (projected s) u := by
  rw [frameOps, runOps_append (runOps_frameProject hs), frameProject_eq_projected]
  exact runOps_calMin (sourceAwaited_projected hs) (by rw [projected_phase, hp])

/-- The counter after the first three blocks, from the count before the frame. -/
theorem LoweredFrom.warmupDone_iff {u : State} (h : LoweredFrom (projected s) u) :
    warmupDone (countFrame u) = true ↔ (s.fc + 1).toNat = s.cfg.warmupFrames := by
  simp [warmupDone, h.fc, h.cfg]

/-- The last two blocks, run on the counted frame: the rest of frame dispatch. -/
theorem runOps_calFin_selectorOps (hs : SourceAwaited s) (hp : s.phase = .warmingUp)
    (hfc : s.fc.toNat = s.cfg.warmupFrames) :
    runOps (eachIdx .calFin ++ selectorOps) s = .next (frameSelect (forIdx calFin s)) := by
  rw [runOps_append (runOps_calFin hs hp hfc), forIdx_calFin]
  exact runOps_selectorOps ⟨hs.1, hs.2⟩ rfl

theorem frameOps_arming_eq : frameOps .arming = frameOps .warmup ++ (eachIdx .calFin ++ selectorOps) := by
  simp only [frameOps, List.append_assoc]

theorem exec_frmDispatch (hs : SourceAwaited s) :
    exec .frmDispatch s = .next (dropTransients (frameSelect (frameCalibrate (projected s)))) := by
  rw [exec_selected (i := .frmDispatch) hs, effectOf, frmDispatch, frameProject_eq_projected]

end

/-- Settles O39: each row's blocks, run one after another, are the loops that frame dispatch is made of. -/
theorem dispatchIsItsStages : Obligations.DispatchIsItsStages := by
  intro s hs
  rw [exec_frmDispatch hs]
  refine ⟨fun hk => ?_, fun hk => ?_, fun hk => ?_⟩
  · obtain ⟨hp, hfc⟩ := frameKind_warmup_iff.mp hk
    obtain ⟨u, hrun, hu⟩ := runOps_frameOps_warmup hs hp
    refine ⟨u, hrun, ?_⟩
    rw [hu.calibrate, if_neg (mt hu.warmupDone_iff.mp hfc), frameSelect_warmingUp (s := countFrame u) hu.warmingUp,
      ← projected_fc s, ← hu.fc]
    rfl
  · obtain ⟨hp, hfc⟩ := frameKind_arming_iff.mp hk
    obtain ⟨u, hrun, hu⟩ := runOps_frameOps_warmup hs hp
    have hdone := hu.warmupDone_iff.mpr hfc
    refine ⟨u, frameSelect (forIdx calFin (countFrame u)), hrun, ?_, frameOps_arming_eq, ?_⟩
    · rw [← projected_fc s, ← hu.fc]
      exact runOps_calFin_selectorOps (s := countFrame u) hu.awaited hu.warmingUp (beq_iff_eq.mp hdone)
    · rw [hu.calibrate, if_pos hdone]
      rfl
  · have hp : (projected s).phase = .armed := (projected_phase s).trans (frameKind_live_iff.mp hk)
    refine ⟨frameSelect (projected s), ?_, ?_⟩
    · rw [frameOps, runOps_append (runOps_frameProject hs), frameProject_eq_projected]
      exact runOps_selectorOps (sourceAwaited_projected hs) hp
    · rw [frameCalibrate_armed hp]
      rfl

/-- Settles O42: a frame inside the warm-up leaves `cv` clear, and the other two outcomes carry a legal command. -/
theorem onlyLegalCommands : Obligations.OnlyLegalCommands := by
  intro s t h hv
  obtain ⟨⟨-, hcv⟩, rfl⟩ := exec_next_iff.mp h
  rw [effectOf] at hv ⊢
  rcases frmDispatch_cases s with ⟨-, -, heq⟩ | ⟨-, -, c, hc, heq⟩ | ⟨-, c, hc, heq⟩ <;> rw [heq] at hv ⊢
  · exact absurd hv (by simp [hcv])
  · exact hc
  · exact hc

end Sys2Proof.Machine
end

section
/-! SUPPORT. The search for a header (spec/40_synchronizer.md R111 to R114, R119, R120): what its operations do and
leave unchanged, a signature from any match position, and the longest header start that ends at a byte. -/

namespace Sys2Proof.Machine

/-! ### The operations of the search -/

/-- Settles O12: the effect of SYN.SKIP is `mp <- 0`, where `mp` is 0 already. -/
theorem skipDiscardsByte : Obligations.SkipDiscardsByte := by
  intro b s hs hmp hb
  have hsel : Selected (.synSkip b) s := ⟨hs, hmp, hb⟩
  rw [exec_selected hsel, effectOf, ← hmp]

/-- Settles O13: each advance is selected at its position. -/
theorem advanceAddsOne : Obligations.AdvanceAddsOne := fun _ hs =>
  ⟨fun h => exec_selected ⟨hs, h⟩, fun h => exec_selected ⟨hs, h⟩, fun h => exec_selected ⟨hs, h⟩,
    fun h => exec_selected ⟨hs, h⟩, fun h => exec_selected ⟨hs, h⟩⟩

/-- Settles O14: SYN.LOCK is selected at `mp = 5`. -/
theorem lockStartsPayload : Obligations.LockStartsPayload := fun _ hs hmp => exec_selected ⟨hs, hmp⟩

/-- The byte `02` stands at the start of the signature only. -/
theorem not_continuesSig_start {mp : MatchPos} (h : mp ≠ 0) : ¬ continuesSig mp 0x02 = true := by
  revert mp; decide

/-- Settles O15: a byte that breaks the match selects SYN.DROP, and past the first position `02` is such a byte. -/
theorem dropLosesByte : Obligations.DropLosesByte := by
  refine ⟨fun b s hs hlo hhi hb => exec_selected ⟨hs, hlo, hhi, hb⟩, fun s hs hlo hhi => ?_⟩
  have hb : sigTable[s.mp.val]? ≠ some 0x02 :=
    mt (continuesSig_iff ..).mpr (not_continuesSig_start (MatchPos.ne_zero_iff.mpr hlo))
  rw [eventStep_admitted (hs.admits rfl), selectEvent, selectByte_drop hlo hhi hb]
  exact exec_selected ⟨hs, hlo, hhi, hb⟩

/-- Settles O21: each effect writes `mp`, and SYN.LOCK's `pcnt` too. -/
theorem huntingFrame : Obligations.HuntingFrame := by
  intro b i s t hi h
  obtain ⟨-, rfl⟩ := exec_next_iff.mp h
  cases i with
  | synLock => exact ⟨rfl, fun hne => absurd rfl hne, fun _ => rfl⟩
  | synSkip | synAdv0 | synAdv1 | synAdv2 | synAdv3 | synAdv4 | synDrop => exact ⟨rfl, fun _ => rfl, fun _ => rfl⟩
  | _ => simp at hi

/-! ### A signature from any match position -/

theorem MatchPos.succ_val {mp : MatchPos} (hmp : mp ≠ 6) : (mp + 1).val = mp.val + 1 := by
  revert mp; decide

/-- One byte of the signature but the last moves the match on by one and changes nothing else. -/
theorem advance_sigByte {s : State} (hs : SourceAwaited s) {k : MatchPos} {b : Byte} (hk : k.val < 5)
    (hb : continuesSig k b = true) : advance { s with mp := k } (.byte b) = { s with mp := k + 1 } := by
  have hk6 : k ≠ 6 := MatchPos.ne_six_iff.mpr hk.le
  have hnext : k + 1 ≠ 6 := MatchPos.ne_six_iff.mpr (by rw [MatchPos.succ_val hk6]; exact hk)
  rw [advance_byte_hunting (s := { s with mp := k }) b hs hk6]
  simp only [huntByte, huntNext, hb, if_true, hnext, if_false]

/-- A byte, then the acknowledgement of the command it may have produced: `mp` is the byte's, and the byte source is
awaited again. -/
theorem runBytes_cons_acked {s : State} (hs : SourceAwaited s) (b : Byte) : ∃ t, SourceAwaited t ∧
    t.mp = (advance s (.byte b)).mp ∧ ∀ bs, (runBytes s (b :: bs)).1 = (runBytes t bs).1 := by
  have hh : (advance s (.byte b)).halted = false := (advance_byte_halted s b).trans hs.1
  cases hv : (advance s (.byte b)).cv with
  | false => exact ⟨_, ⟨hh, hv⟩, rfl, fun bs => by simp only [runBytes, hv, Bool.false_eq_true, if_false]⟩
  | true =>
    refine ⟨{ advance s (.byte b) with cv := false }, ⟨hh, rfl⟩, rfl, fun bs => ?_⟩
    simp only [runBytes, hv, if_true, advance_sinkAck hh hv]

/-- No header is begun: the block waits for a `02`, or it is inside a payload. -/
def NoneBegun (mp : MatchPos) : Prop := mp = 0 ∨ mp = 6

/-- A payload byte begins no header, whatever it is: it is stored, or it completes a frame. -/
theorem noneBegun_advance_locked {s : State} (hs : SourceAwaited s) (hmp : s.mp = 6) (b : Byte) :
    NoneBegun (advance s (.byte b)).mp := by
  by_cases hp : s.pcnt = 195
  · rw [advance_byte_last b hs hmp hp, frmDispatch_mp]
    exact .inl rfl
  · rw [advance_byte_put b hs hmp hp]
    exact .inr hmp

/-- A byte that does not continue the match begins no header. -/
theorem noneBegun_advance_hunting {s : State} (hs : SourceAwaited s) (hmp : s.mp ≠ 6) {b : Byte}
    (hb : ¬ continuesSig s.mp b = true) : NoneBegun (advance s (.byte b)).mp := by
  rw [advance_byte_hunting b hs hmp, huntByte, huntNext, if_neg hb]
  exact .inl rfl

/-- The byte `02` begins a header from `mp = 0` alone: it breaks a partial match, and inside a payload it is data. -/
theorem noneBegun_advance_start {s : State} (hs : SourceAwaited s) (h : s.mp ≠ 0) :
    NoneBegun (advance s (.byte 0x02)).mp := by
  by_cases hmp : s.mp = 6
  · exact noneBegun_advance_locked hs hmp _
  · exact noneBegun_advance_hunting hs hmp (not_continuesSig_start h)

/-- Outside a partial match a byte other than `02` begins no header. -/
theorem noneBegun_advance {s : State} (hs : SourceAwaited s) {b : Byte} (h : NoneBegun s.mp) (hb : b ≠ 0x02) :
    NoneBegun (advance s (.byte b)).mp := by
  rcases h with hmp | hmp
  · exact noneBegun_advance_hunting hs (by rw [hmp]; decide) (by rw [hmp, continuesSig_zero]; exact hb)
  · exact noneBegun_advance_locked hs hmp b

/-- Bytes other than `02` begin no header. -/
theorem noneBegun_runBytes {s : State} (hs : SourceAwaited s) {bs : List Byte} (h : NoneBegun s.mp)
    (hbs : ∀ b ∈ bs, b ≠ 0x02) : NoneBegun (runBytes s bs).1.mp := by
  induction bs generalizing s with
  | nil => exact h
  | cons b bs ih =>
    obtain ⟨hb, hbs⟩ := List.forall_mem_cons.mp hbs
    obtain ⟨t, ht, hmp, heq⟩ := runBytes_cons_acked hs b
    rw [heq]
    exact ih ht (by rw [hmp]; exact noneBegun_advance hs h hb) hbs

/-- The byte `65` is no SYN.LOCK where no header is begun. -/
theorem selectByte_ne_synLock {mp : MatchPos} (h : NoneBegun mp) (pcnt : FbAddr) :
    selectByte mp pcnt 0x65 ≠ .synLock := by
  rcases h with rfl | rfl
  · rw [selectByte_skip (by decide)]
    exact Instr.noConfusion
  · rw [selectByte, if_pos rfl]
    split <;> exact Instr.noConfusion

/-- A signature byte but the last gives the run over to the next position. -/
theorem runBytes_sigByte {s : State} (hs : SourceAwaited s) {k : MatchPos} {b : Byte} (hk : k.val < 5)
    (hb : continuesSig k b = true) (bs : List Byte) :
    runBytes { s with mp := k } (b :: bs) = runBytes { s with mp := k + 1 } bs := by
  rw [runBytes, advance_sigByte hs hk hb]
  simp only [hs.2, Bool.false_eq_true, if_false]

/-- From `mp = 0` the first five bytes of the signature lead to `mp = 5`. -/
theorem runBytes_signature_mp {s : State} (hs : SourceAwaited s) (h : s.mp = 0) :
    (runBytes s [0x02, 0x80, 0xCE, 0x00, 0xB0]).1.mp = 5 := by
  have hs0 : s = { s with mp := 0 } := by rw [← h]
  rw [hs0, runBytes_sigByte hs (by decide) rfl, runBytes_sigByte hs (by decide) rfl,
    runBytes_sigByte hs (by decide) rfl, runBytes_sigByte hs (by decide) rfl, runBytes_sigByte hs (by decide) rfl]
  rfl

/-- Settles O18: from `mp = 0` five advances lead to the position of SYN.LOCK; from elsewhere the `02` begins no header
and the four bytes after it cannot. -/
theorem lockExactlyFromIdle : Obligations.LockExactlyFromIdle := by
  intro s hs
  refine ⟨fun hlock => ?_, fun hmp => ?_⟩
  · by_contra hmp
    obtain ⟨t, ht, htmp, heq⟩ := runBytes_cons_acked hs 0x02
    have hstart : NoneBegun t.mp := htmp ▸ noneBegun_advance_start hs hmp
    have hnone := noneBegun_runBytes ht hstart (bs := [0x80, 0xCE, 0x00, 0xB0]) (by decide)
    rw [heq] at hlock
    exact selectByte_ne_synLock hnone _ hlock
  · show selectByte (runBytes s _).1.mp _ _ = _
    rw [runBytes_signature_mp hs hmp]
    rfl

/-! ### The longest header start -/

/-- The signature overlaps with no proper start of itself: a start of it ends in another only as the empty one or the
same one. -/
theorem take_suffix_take_iff :
    ∀ j < 6, ∀ m < 6, (sigTable.take j <:+ sigTable.take m ↔ j = 0 ∨ j = m) := by
  decide

/-- The header starts that end with a byte: the empty one, `02` alone, and the match continued. -/
theorem take_suffix_snoc_iff {mp : MatchPos} (hmp : mp ≠ 6) (b : Byte) {k : Nat} (hk : k < 7) :
    sigTable.take k <:+ sigTable.take mp.val ++ [b] ↔
      k = 0 ∨ (k = 1 ∧ b = 0x02) ∨ (k = mp.val + 1 ∧ continuesSig mp b = true) := by
  have hmp6 : mp.val < 6 := Nat.lt_succ_of_le (MatchPos.ne_six_iff.mp hmp)
  cases k with
  | zero => simp
  | succ j =>
    have hj : j < 6 := Nat.lt_of_succ_lt_succ hk
    have hj' : j < sigTable.length := hj
    have hsnoc : sigTable.take (j + 1) <:+ sigTable.take mp.val ++ [b] ↔
        sigTable[j] = b ∧ (j = 0 ∨ j = mp.val) := by
      rw [List.take_succ_eq_append_getElem hj', ← take_suffix_take_iff j hj _ hmp6]
      constructor
      · rintro ⟨pre, hpre⟩
        rw [← List.append_assoc] at hpre
        obtain ⟨hstart, hlast⟩ := List.append_inj' hpre rfl
        exact ⟨List.singleton_inj.mp hlast, pre, hstart⟩
      · rintro ⟨rfl, pre, hpre⟩
        exact ⟨pre, by rw [← hpre, List.append_assoc]⟩
    rw [hsnoc, continuesSig_iff]
    constructor
    · rintro ⟨rfl, rfl | rfl⟩
      · exact .inr (.inl ⟨rfl, rfl⟩)
      · exact .inr (.inr ⟨rfl, List.getElem?_eq_getElem hj'⟩)
    · rintro (h | ⟨h, rfl⟩ | ⟨h, hb⟩)
      · cases h
      · obtain rfl := Nat.succ.inj h
        exact ⟨rfl, .inl rfl⟩
      · obtain rfl := Nat.succ.inj h
        exact ⟨List.getElem_eq_iff hj' |>.mpr hb, .inr rfl⟩

/-- What a backtracking matcher keeps while hunting (40_synchronizer.md R120). -/
theorem longestStart_eq {mp : MatchPos} (hmp : mp ≠ 6) (b : Byte) :
    longestStart mp b = if continuesSig mp b then mp.val + 1 else if b = 0x02 then 1 else 0 := by
  have hstarts : ((List.range 7).filter fun k => (sigTable.take k).isSuffixOf (sigTable.take mp.val ++ [b])) =
      (List.range 7).filter fun k =>
        k == 0 || (k == 1 && decide (b = 0x02)) || (k == mp.val + 1 && continuesSig mp b) := by
    refine List.filter_congr fun k hk => ?_
    rw [Bool.eq_iff_iff, List.isSuffixOf_iff_suffix, take_suffix_snoc_iff hmp b (List.mem_range.mp hk)]
    simp [or_assoc]
  have hmax : ∀ m : MatchPos, m ≠ 6 → ∀ x y : Bool,
      ((List.range 7).filter fun k => k == 0 || (k == 1 && x) || (k == m.val + 1 && y)).foldl max 0 =
        if y then m.val + 1 else if x then 1 else 0 := by decide
  rw [longestStart, hstarts, hmax mp hmp]
  simp

/-- Settles O19: the match progress is the match continued or 0; the longest start differs where the byte is a `02` that
does not continue the match. -/
theorem differsFromBacktrackingOnlyAtDrop : Obligations.DiffersFromBacktrackingOnlyAtDrop := by
  intro s b t hs hmp hstep
  have ht : t.mp = huntNext s.mp b := by
    rw [← advance_of_eventStep hstep, advance_byte_hunting b hs hmp, huntByte]
  rw [← Fin.val_eq_zero_iff, ht, longestStart_eq hmp, huntNext]
  by_cases hsig : continuesSig s.mp b = true
  · have hdrop : s.mp ≠ 0 → b ≠ 0x02 := fun h e => not_continuesSig_start h (e ▸ hsig)
    rw [if_pos hsig, if_pos hsig]
    exact ⟨.inl (MatchPos.succ_val hmp), fun h e => absurd e (hdrop h)⟩
  · rw [if_neg hsig, if_neg hsig]
    by_cases hb : b = 0x02
    · have hmp0 : s.mp ≠ 0 := fun h => hsig (by rw [h, hb]; rfl)
      rw [if_pos hb]
      exact ⟨.inr ⟨hmp0, hb, rfl, rfl⟩, fun _ _ => ⟨rfl, rfl⟩⟩
    · rw [if_neg hb]
      exact ⟨.inl rfl, fun _ e => absurd e hb⟩

end Sys2Proof.Machine
end

section
/-! SUPPORT. The payload operations (spec/40_synchronizer.md R115, R116): what they store and what they leave
unchanged. -/

namespace Sys2Proof.Machine

/-- Settles O16: the effect of PAY.PUT is a write at `pcnt` and the next address. -/
theorem putStoresPayloadByte : Obligations.PutStoresPayloadByte := by
  intro b s hs hmp hp
  refine ⟨_, exec_selected ⟨hs, hmp, hp⟩, fun hwf => ⟨?_, ?_⟩, fun a ha => ?_, nextAddr_val hp, rfl⟩
  · exact readByte_writeByte_same s.pcnt b hwf
  · exact writeByte_wf s.pcnt b hwf
  · exact readByte_writeByte_other b s ha

/-- Settles O17: PAY.LAST is frame dispatch from the completed frame, where the byte source is still awaited. -/
theorem lastCompletesFrame : Obligations.LastCompletesFrame := by
  intro b s hs hmp hp
  have hlast : Selected (.payLast b) s := ⟨hs, hmp, congrArg Fin.val hp⟩
  have hdispatch : Selected .frmDispatch (completeFrame b s) := hs
  refine ⟨completeFrame b s, _, rfl, fun hwf => ⟨?_, ?_⟩, fun a ha => ?_, exec_selected hlast,
    exec_selected hdispatch⟩
  · exact readByte_writeByte_same 195 b hwf
  · exact writeByte_wf 195 b hwf
  · exact readByte_writeByte_other b s ha

/-- A frame is read from the buffer, which it leaves alone. -/
@[simp] theorem readByte_frmDispatch (s : State) (a : FbAddr) : readByte (frmDispatch s) a = readByte s a := by
  rw [readByte, frmDispatch_fb, readByte]

/-- While ARMED a frame leaves the count and the phase (10_state.md R27, R28). -/
theorem frmDispatch_count_armed {s : State} (h : s.phase = .armed) :
    (frmDispatch s).fc = s.fc ∧ (frmDispatch s).phase = s.phase := by
  obtain ⟨best, idx, -, heq⟩ := frmDispatch_live h
  rw [heq]
  exact ⟨rfl, rfl⟩

/-- Settles O22: PAY.PUT writes one byte and `pcnt`; PAY.LAST writes the last byte, and its frame dispatch leaves the
buffer alone. -/
theorem payloadFrame : Obligations.PayloadFrame := by
  intro b s t
  refine ⟨fun h => ?_, fun h => ?_⟩
  · obtain ⟨-, rfl⟩ := exec_next_iff.mp h
    exact ⟨rfl, fun a ha => readByte_writeByte_other b s ha⟩
  · obtain ⟨⟨-, -, hp⟩, rfl⟩ := exec_next_iff.mp h
    rw [effectOf]
    refine ⟨fun a ha => ?_, ?_, fun harmed => ?_⟩
    · have hlast : s.pcnt = 195 := Fin.ext hp
      rw [readByte_frmDispatch]
      exact readByte_writeByte_other b s (hlast ▸ ha)
    · conv_lhs => rw [frmDispatch_frame]
      simp only [frmDispatch_mp, frmDispatch_pcnt, frmDispatch_fb]
      rfl
    · obtain ⟨hfc, hphase⟩ := frmDispatch_count_armed (s := completeFrame b s) harmed
      exact ⟨hfc, hphase, frmDispatch_ref_armed (s := completeFrame b s) harmed⟩

end Sys2Proof.Machine
end

section
/-! SUPPORT. The frame on natural numbers (spec/41_decoder.md R131; spec/42_projector.md R141): the samples in the
buffer, their distances, and the command of the nearest candidate (spec/44_selector.md R181). -/

namespace Sys2Proof.Machine

/-! ### Samples and distances -/

/-- A pair is the number its bytes write in little-endian order (20_memory.md R51). -/
theorem samplePair_toNat (lo hi : Byte) : (samplePair lo hi).toNat = 256 * hi.toNat + lo.toNat := by
  have hlo := lo.isLt
  have hhi := hi.isLt
  have hshift : (hi.setWidth 16 <<< 8).toNat = hi.toNat <<< 8 := by
    rw [BitVec.toNat_shiftLeft, BitVec.toNat_setWidth, Nat.shiftLeft_eq, Nat.shiftLeft_eq]
    omega
  rw [samplePair, BitVec.toNat_or, hshift, BitVec.toNat_setWidth, Nat.mod_eq_of_lt (by omega),
    ← Nat.shiftLeft_add_eq_or_of_lt hlo, Nat.shiftLeft_eq]
  omega

/-- The sample of a pair is its low 13 bits (41_decoder.md R131). -/
theorem sampleOfPair_toNat (w : BitVec 16) : (sampleOfPair w).toNat = w.toNat % 8192 := by
  have hmask : (0x1FFF : BitVec 16).toNat = 2 ^ 13 - 1 := rfl
  rw [sampleOfPair, BitVec.toNat_setWidth, BitVec.toNat_and, hmask, Nat.and_two_pow_sub_one_eq_mod]
  omega

/-- What DEC.SAMPLE reads is the sample in the buffer. -/
theorem sampleOfPair_readPair_toNat (s : State) (i : SampleIdx) :
    (sampleOfPair (readPair s i)).toNat = sampleNat s i := by
  rw [sampleOfPair_toNat, readPair, samplePair_toNat, sampleNat]

/-- The two bytes of a sample write it again, whatever the ignored bits are (30_encoding.md R89, R95). -/
theorem encodeSample_toNat (v : Sample) (ign : BitVec 3) :
    (256 * (encodeSample v ign).2.toNat + (encodeSample v ign).1.toNat) % 8192 = v.toNat := by
  have hv := v.isLt
  have hign := ign.isLt
  have hlo : (v.setWidth 8).toNat = v.toNat % 256 := BitVec.toNat_setWidth ..
  have hhi : ((v >>> 8).setWidth 8 ||| (ign.setWidth 8 <<< 5)).toNat = ign.toNat * 32 + v.toNat / 256 := by
    have hsample : ((v >>> 8).setWidth 8).toNat = v.toNat / 256 := by
      rw [BitVec.toNat_setWidth, BitVec.toNat_ushiftRight, Nat.shiftRight_eq_div_pow]
      omega
    have hignored : (ign.setWidth 8 <<< 5).toNat = ign.toNat <<< 5 := by
      rw [BitVec.toNat_shiftLeft, BitVec.toNat_setWidth, Nat.shiftLeft_eq, Nat.shiftLeft_eq]
      omega
    rw [BitVec.toNat_or, hsample, hignored, Nat.or_comm, ← Nat.shiftLeft_add_eq_or_of_lt (by omega), Nat.shiftLeft_eq]
  rw [encodeSample, hhi, hlo]
  omega

theorem sinq_toNat (i : SampleIdx) : (sinq i).toNat = sineTable.getD i.val 0 := by
  revert i; decide

/-- The projection is the rule's formula (42_projector.md R141). -/
theorem project_toNat (raw : Sample) (i : SampleIdx) : (project raw i).toNat = projNat raw.toNat i := by
  have hraw : raw.toNat ≤ 8191 := Nat.le_of_lt_succ raw.isLt
  have hprod : raw.toNat * (sinq i).toNat ≤ 8191 * 2 ^ 29 := Nat.mul_le_mul hraw (sinq_le i)
  rw [project, BitVec.toNat_ofNat, Nat.shiftRight_eq_div_pow, projNat, ← sinq_toNat]
  omega

/-- The projected vector holds the distances of the frame in the buffer. -/
theorem projOf_toNat (s : State) (i : SampleIdx) : (projOf s)[i.val].toNat = frameProjNat s i := by
  rw [projOf, Vector.getElem_ofFn, project_toNat, sampleOfPair_readPair_toNat, frameProjNat]

/-! ### The command -/

/-- The qualifying test on natural numbers (44_selector.md R176). -/
theorem qualifies_iff (cfg : Config) (proj ref : Dist) :
    qualifies cfg proj ref = true ↔ QualNat cfg proj.toNat ref.toNat := by
  simp [qualifies, QualNat, BitVec.lt_def, and_assoc]

/-- The scan's nearest candidate, on natural numbers, is the one the command names (44_selector.md R181). -/
theorem nearestCommand_of_nearestOf {s : State} {best : Dist} {idx : SampleIdx}
    (h : nearestOf (selDist s) 98 best idx) :
    NearestCommand (fun i => QualNat s.cfg s.scratch.proj[i.val].toNat s.ref[i.val].toNat)
      (fun i => s.scratch.proj[i.val].toNat) (encodeCommand idx (selQualAt s idx)) := by
  have hqual (i : SampleIdx) : selQualAt s i = true ↔ QualNat s.cfg s.scratch.proj[i.val].toNat s.ref[i.val].toNat :=
    qualifies_iff ..
  have hdist {i : SampleIdx} (hi : selQualAt s i = true) : selDist s i = s.scratch.proj[i.val] := if_pos hi
  obtain ⟨hmin, ⟨rfl, rfl⟩ | ⟨hbest, hidx, -, hfirst⟩⟩ := h
  · have hnone (i : SampleIdx) : selQualAt s i = false := selQualAt_eq_false_of_inf (hmin i i.isLt)
    refine .inl ⟨fun i hi => ?_, ?_⟩
    · have hi' := (hqual i).mpr hi
      rw [hnone] at hi'
      cases hi'
    · rw [hnone]
      decide
  · have hq : selQualAt s idx = true := by
      by_contra hne
      rw [selDist_of_not_qual (by simpa using hne)] at hidx
      rw [← hidx] at hbest
      exact absurd hbest (BitVec.lt_irrefl _)
    rw [hdist hq] at hidx
    refine .inr ⟨idx, (hqual idx).mp hq, fun j hj => ?_, fun j hlt hj => ?_, ?_⟩
    · have := hmin j j.isLt
      rwa [hdist ((hqual j).mpr hj), ← hidx] at this
    · have := hfirst j hlt
      rwa [hdist ((hqual j).mpr hj), ← hidx] at this
    · rw [hq, encodeCommand_fire_toNat]

/-- A live frame presents the command of its nearest qualifying index (45_pipeline.md R200; 44_selector.md R181). -/
theorem frmDispatch_command_armed {s : State} (h : s.phase = .armed) : (frmDispatch s).cv = true ∧
    NearestCommand (fun i => QualNat s.cfg (frameProjNat s i) s.ref[i.val].toNat) (frameProjNat s)
      (frmDispatch s).cmd := by
  obtain ⟨best, idx, hnear, heq⟩ := frmDispatch_live h
  have hcommand := nearestCommand_of_nearestOf hnear
  simp only [projected_cfg, projected_ref, projected_proj, projOf_toNat] at hcommand
  rw [heq]
  exact ⟨rfl, hcommand⟩

/-- A frame of the warm-up is counted, the arming frame among them (45_pipeline.md R200). -/
theorem frmDispatch_fc_warmingUp {s : State} (h : s.phase = .warmingUp) : (frmDispatch s).fc = s.fc + 1 := by
  rcases frmDispatch_cases s with ⟨-, -, heq⟩ | ⟨-, -, c, -, heq⟩ | ⟨harmed, -⟩
  · rw [heq]
  · rw [heq]
  · rw [h] at harmed
    cases harmed

end Sys2Proof.Machine
end

section
/-! SUPPORT. Bytes consumed one step each (spec/40_synchronizer.md R118): garbage, a signature and a payload, from a
state that hunts from the start. -/

namespace Sys2Proof.Machine

/-! ### Steps and bytes -/

theorem coreRun_succ {M : Host.Core} {s t : M.State} (h : M.step s = .next t) (n : Nat) :
    M.run (n + 1) s = M.run n t := by
  rw [Host.Core.run, h]

/-- A run of `m + n` steps goes on from where its first `m` steps end. -/
theorem coreRun_add {M : Host.Core} {s t : M.State} {m : Nat} (h : M.run m s = .next t) (n : Nat) :
    M.run (m + n) s = M.run n t := by
  induction m generalizing s with
  | zero =>
    obtain rfl : s = t := Host.Outcome.next.inj h
    rw [Nat.zero_add]
  | succ m ih =>
    cases hstep : M.step s with
    | next u =>
      rw [coreRun_succ hstep] at h
      rw [Nat.succ_add, coreRun_succ hstep, ih h]
    | fault r | refused r =>
      rw [Host.Core.run, hstep] at h
      cases h

/-- The oldest offer is a byte that the block awaits: the step consumes it. -/
theorem step_byte {s : State} (hs : SourceAwaited s) (b : Byte) (rest : List InEvent) :
    step { s with offers := .byte b :: rest } = .next (advance { s with offers := rest } (.byte b)) := by
  have hadm : admits { s with offers := .byte b :: rest } (.byte b) = true := (admit_offers ..).trans (hs.admits rfl)
  rw [step, nextOffer, takeAdmitted, if_pos hadm]
  exact eventStep_advance ..

/-- The machine consumes the bytes, one step each, and goes from `s` to `t` whatever is offered after them. -/
def Consumes (s : State) (bytes : List Byte) (t : State) : Prop :=
  ∀ rest, Host.Core.run Sys2Proof.core bytes.length ({ s with offers := bytes.map .byte ++ rest } : State) =
    .next ({ t with offers := rest } : State)

namespace Consumes
variable {s t u : State}

theorem nil (s : State) : Consumes s [] s := fun _ => rfl

theorem append {as bs : List Byte} (h₁ : Consumes s as t) (h₂ : Consumes t bs u) : Consumes s (as ++ bs) u := by
  intro rest
  rw [List.length_append, List.map_append, List.append_assoc, coreRun_add (h₁ _), h₂]

/-- A byte whose effect does not depend on the offers. -/
theorem byte (hs : SourceAwaited s) {b : Byte}
    (h : ∀ rest, advance { s with offers := rest } (.byte b) = { t with offers := rest }) : Consumes s [b] t := by
  intro rest
  have hstep := step_byte hs b rest
  rw [h] at hstep
  exact coreRun_succ (M := Sys2Proof.core) hstep 0

theorem hunting (hs : SourceAwaited s) (hmp : s.mp ≠ 6) (b : Byte) : Consumes s [b] (huntByte b s) :=
  byte hs fun rest => advance_byte_hunting (s := { s with offers := rest }) b hs hmp

theorem put (hs : SourceAwaited s) (hmp : s.mp = 6) (hp : s.pcnt ≠ 195) (b : Byte) :
    Consumes s [b] { writeByte s.pcnt b s with pcnt := nextAddr s.pcnt } :=
  byte hs fun rest => advance_byte_put (s := { s with offers := rest }) b hs hmp hp

/-- Garbage is skipped (40_synchronizer.md R111). -/
theorem garbage (hs : SourceAwaited s) (hmp : s.mp = 0) {bytes : List Byte} (h : ∀ b ∈ bytes, b ≠ 0x02) :
    Consumes s bytes s := by
  induction bytes with
  | nil => exact nil s
  | cons b bytes ih =>
    obtain ⟨hb, hbytes⟩ := List.forall_mem_cons.mp h
    have hskip : huntByte b s = s := by
      rw [huntByte, huntNext, hmp, if_neg (mt (continuesSig_zero b).mp hb), if_neg (by decide), ← hmp]
    have hfirst := hunting hs (by rw [hmp]; decide) b
    rw [hskip] at hfirst
    exact hfirst.append (ih hbytes)

/-- The signature leads from `mp = 0` to the payload (40_synchronizer.md R112, R113). -/
theorem signature (hs : SourceAwaited s) (hmp : s.mp = 0) : Consumes s sigTable { s with mp := 6, pcnt := 0 } := by
  have sigByte (k : MatchPos) (hk : k.val < 5) (b : Byte) (hb : continuesSig k b = true) :
      Consumes { s with mp := k } [b] { s with mp := k + 1 } :=
    byte (s := { s with mp := k }) hs fun rest => advance_sigByte (s := { s with offers := rest }) hs hk hb
  have lock : Consumes { s with mp := 5 } [0x65] { s with mp := 6, pcnt := 0 } :=
    hunting (s := { s with mp := 5 }) hs (show (5 : MatchPos) ≠ 6 by decide) 0x65
  have hs0 : s = { s with mp := 0 } := by rw [← hmp]
  rw [hs0]
  exact (sigByte 0 (by decide) 0x02 rfl).append <| (sigByte 1 (by decide) 0x80 rfl).append <|
    (sigByte 2 (by decide) 0xCE rfl).append <| (sigByte 3 (by decide) 0x00 rfl).append <|
    (sigByte 4 (by decide) 0xB0 rfl).append lock

end Consumes

/-! ### The payload -/

/-- The buffer holds the bytes, from address 0 on. -/
def Holds (s : State) (bytes : List Byte) : Prop :=
  ∀ (a : FbAddr) (b : Byte), bytes[a.val]? = some b → readByte s a = b

/-- One more byte stored behind the ones held. -/
theorem Holds.snoc {s : State} {bytes : List Byte} (h : Holds s bytes) (hwf : s.fb.wf = true) {a : FbAddr}
    (ha : a.val = bytes.length) (b : Byte) : Holds (writeByte a b s) (bytes ++ [b]) := by
  intro c x hx
  by_cases hc : c = a
  · subst hc
    rw [ha, List.getElem?_concat_length] at hx
    rw [readByte_writeByte_same c b hwf]
    exact Option.some.inj hx
  · rw [readByte_writeByte_other b s hc]
    have hlt : c.val < (bytes ++ [b]).length := (List.getElem?_eq_some_iff.mp hx).1
    have hne : c.val ≠ bytes.length := fun e => hc (Fin.ext (e.trans ha.symm))
    rw [List.length_append, List.length_singleton] at hlt
    rw [List.getElem?_append_left (by omega)] at hx
    exact h c x hx

/-- Payload bytes before the last: they are in the buffer and counted, and nothing else has changed
(40_synchronizer.md R115). -/
theorem consumes_puts {s : State} (hs : SourceAwaited s) (hmp : s.mp = 6) (hp : s.pcnt = 0) (hwf : s.fb.wf = true)
    {bytes : List Byte} (hlen : bytes.length ≤ 195) : ∃ t : State, Consumes s bytes t ∧
      t = { s with fb := t.fb, pcnt := t.pcnt } ∧ t.pcnt.val = bytes.length ∧ t.fb.wf = true ∧ Holds t bytes := by
  induction bytes using List.reverseRecOn with
  | nil => exact ⟨s, Consumes.nil s, rfl, congrArg Fin.val hp, hwf, fun _ _ h => nomatch h⟩
  | append_singleton bytes b ih =>
    rw [List.length_append, List.length_singleton] at hlen
    obtain ⟨t, hrun, hframe, hcount, htwf, hholds⟩ := ih (by omega)
    have hlt : t.pcnt.val < 195 := by omega
    have hts : SourceAwaited t := by rw [hframe]; exact hs
    have htmp : t.mp = 6 := by rw [hframe]; exact hmp
    refine ⟨_, hrun.append (Consumes.put hts htmp (FbAddr.ne_last_iff.mpr hlt) b), ?_, ?_, ?_, ?_⟩
    · rw [hframe]; rfl
    · rw [List.length_append, List.length_singleton, ← hcount]
      exact nextAddr_val hlt
    · exact writeByte_wf t.pcnt b htwf
    · exact hholds.snoc htwf hcount b

/-- The last payload byte completes the frame: the buffer holds the payload, and frame dispatch runs on it
(40_synchronizer.md R116). -/
theorem run_payload {s : State} (hs : SourceAwaited s) (hmp : s.mp = 6) (hp : s.pcnt = 0) (hwf : s.fb.wf = true)
    {bytes : List Byte} (hlen : bytes.length = 196) (rest : List InEvent) : ∃ u : State,
      Host.Core.run Sys2Proof.core 196 ({ s with offers := bytes.map .byte ++ rest } : State) =
        .next (frmDispatch u) ∧
      u = { s with fb := u.fb, mp := 0, pcnt := 0, offers := rest } ∧ Holds u bytes := by
  obtain ⟨init, b, rfl⟩ : ∃ init b, bytes = init ++ [b] :=
    ⟨_, _, (List.dropLast_concat_getLast (List.ne_nil_of_length_eq_add_one hlen)).symm⟩
  rw [List.length_append, List.length_singleton] at hlen
  obtain ⟨t, hrun, hframe, hcount, htwf, hholds⟩ := consumes_puts hs hmp hp hwf (bytes := init) (by omega)
  have hlast : t.pcnt = 195 := Fin.ext (by rw [hcount]; exact Nat.succ.inj hlen)
  have hts : SourceAwaited t := by rw [hframe]; exact hs
  have htmp : t.mp = 6 := by rw [hframe]; exact hmp
  refine ⟨completeFrame b { t with offers := rest }, ?_, ?_, ?_⟩
  · have hstep := step_byte hts b rest
    rw [advance_byte_last (s := { t with offers := rest }) b hts htmp hlast] at hstep
    rw [← hlen, List.map_append, List.append_assoc, coreRun_add (hrun _)]
    exact coreRun_succ (M := Sys2Proof.core) hstep 0
  · rw [hframe]; rfl
  · exact Holds.snoc (s := { t with offers := rest }) hholds htwf (by rw [← hcount, hlast]) b

/-! ### The payload of a frame -/

/-- The pairs of a list laid out one after another: entry `2k` is the first of pair `k`, entry `2k + 1` the second. -/
theorem getElem?_flatMap_pair {α β : Type} (l : List α) (f g : α → β) (k : Nat) :
    (l.flatMap fun x => [f x, g x])[2 * k]? = l[k]?.map f ∧
      (l.flatMap fun x => [f x, g x])[2 * k + 1]? = l[k]?.map g := by
  induction l generalizing k with
  | nil => simp
  | cons x xs ih =>
    cases k with
    | zero => simp
    | succ k => simpa [Nat.mul_succ] using ih k

theorem length_payloadBytes (v : SampleIdx → Sample) (ign : SampleIdx → BitVec 3) :
    (payloadBytes v ign).length = 196 := by
  simp [payloadBytes, List.length_flatMap]

/-- A buffer that holds a frame's payload holds its samples (20_memory.md R53). -/
theorem Holds.sampleNat {s : State} {v : SampleIdx → Sample} {ign : SampleIdx → BitVec 3}
    (h : Holds s (payloadBytes v ign)) (i : SampleIdx) : sampleNat s i = (v i).toNat := by
  obtain ⟨hlow, hhigh⟩ := getElem?_flatMap_pair (List.finRange 98) (fun i => (encodeSample (v i) (ign i)).1)
    (fun i => (encodeSample (v i) (ign i)).2) i.val
  have hi : (List.finRange 98)[i.val]? = some i := by simp
  rw [hi] at hlow hhigh
  rw [Machine.sampleNat, h (lowAddr i) _ hlow, h (highAddr i) _ hhigh, encodeSample_toNat]

/-! ### Garbage, then a frame -/

/-- Settles O20: garbage is skipped, the signature locks, the payload is stored, and frame dispatch runs on the frame's
samples. -/
theorem garbageThenFrameConsumed : Obligations.GarbageThenFrameConsumed := by
  intro s garbage v ign rest hs hmp hwf hgarbage
  have hhead : Consumes s (garbage ++ sigTable) { s with mp := 6, pcnt := 0 } :=
    (Consumes.garbage hs hmp hgarbage).append (Consumes.signature hs hmp)
  obtain ⟨u, hrun, hframe, hholds⟩ := run_payload (s := { s with mp := 6, pcnt := 0 }) hs rfl rfl hwf
    (length_payloadBytes v ign) rest
  have hsamples : sampleNat u = fun i => (v i).toNat := funext hholds.sampleNat
  have hdist : frameProjNat u = fun i => projNat (v i).toNat i := by
    funext i
    rw [frameProjNat, hsamples]
  refine ⟨frmDispatch u, ?_, ?_, ?_, ?_, fun i => ?_, fun hphase => ?_, fun hphase => ?_⟩
  · rw [frameBytes, ← List.append_assoc, List.map_append, List.append_assoc]
    have hlen : garbage.length + 6 = (garbage ++ sigTable).length := by rw [List.length_append]; rfl
    rw [hlen, coreRun_add (hhead _)]
    exact hrun
  · rw [frmDispatch_offers, hframe]
  · rw [frmDispatch_mp, hframe]
  · rw [frmDispatch_pcnt, hframe]
  · have hafter : Holds (frmDispatch u) (payloadBytes v ign) := fun a b hb =>
      (readByte_frmDispatch u a).trans (hholds a b hb)
    exact hafter.sampleNat i
  · rw [frmDispatch_fc_warmingUp (by rw [hframe]; exact hphase), hframe]
  · have harmed : u.phase = .armed := by rw [hframe]; exact hphase
    obtain ⟨hcv, hcommand⟩ := frmDispatch_command_armed harmed
    have href : u.ref = s.ref := by rw [hframe]
    have hcfg : u.cfg = s.cfg := by rw [hframe]
    rw [hdist, href, hcfg] at hcommand
    exact ⟨hcv, (frmDispatch_ref_armed harmed).trans href, hcommand⟩

end Sys2Proof.Machine
end

section
/-! SUPPORT. The sample pair (spec/41_decoder.md R133; spec/30_encoding.md R82, R85, R89): what the decoder ignores of a
pair, and the pair the encoder writes. -/

namespace Sys2Proof.Machine

theorem decodeSample_toNat (lo hi : Byte) : (decodeSample lo hi).toNat = (256 * hi.toNat + lo.toNat) % 8192 := by
  rw [decodeSample, sampleOfPair_toNat, samplePair_toNat]

/-- The bits of a high byte that belong to the sample (30_encoding.md R89). -/
theorem sampleBits_toNat (hi : Byte) : (hi &&& 0x1F).toNat = hi.toNat % 32 := by
  rw [BitVec.toNat_and]
  exact Nat.and_two_pow_sub_one_eq_mod hi.toNat 5

/-- Two pairs give one sample exactly when they differ in the ignored bits alone (41_decoder.md R133). -/
theorem decodeSample_eq_iff (lo hi lo' hi' : Byte) :
    decodeSample lo hi = decodeSample lo' hi' ↔ lo = lo' ∧ hi &&& 0x1F = hi' &&& 0x1F := by
  simp only [← BitVec.toNat_inj, decodeSample_toNat, sampleBits_toNat]
  have hlo := lo.isLt
  have hlo' := lo'.isLt
  omega

theorem decodeSample_encodeSample (v : Sample) (ign : BitVec 3) :
    decodeSample (encodeSample v ign).1 (encodeSample v ign).2 = v :=
  BitVec.eq_of_toNat_eq ((decodeSample_toNat ..).trans (encodeSample_toNat v ign))

/-- Each bit of the pair comes from the low byte, from the sample's part of the high byte, or from the ignored bits
(30_encoding.md R82). -/
theorem samplePair_encodeSample (v : Sample) (ign : BitVec 3) :
    samplePair (encodeSample v ign).1 (encodeSample v ign).2 = (ign ++ v : BitVec 16) := by
  ext k hk
  change (samplePair _ _)[k] = (ign ++ v : BitVec (3 + 13))[k]
  rw [BitVec.getElem_append]
  obtain hlow | hhigh | hignored : k < 8 ∨ (8 ≤ k ∧ k < 13) ∨ 13 ≤ k := by omega
  · have hv : k < 13 := by omega
    simp [samplePair, encodeSample, hlow, hv]
  · obtain ⟨j, rfl⟩ := Nat.exists_eq_add_of_le hhigh.1
    have hv : j < 5 := by omega
    have hb : j < 8 := by omega
    have hs : 8 + j < 13 := by omega
    simp [samplePair, encodeSample, hv, hb, hs]
  · obtain ⟨j, rfl⟩ := Nat.exists_eq_add_of_le hignored
    have he : 13 + j - 8 = 5 + j := by omega
    have hb : 5 + j < 8 := by omega
    have hlo : ¬ 13 + j < 8 := by omega
    have hv : v.getLsbD (8 + (5 + j)) = false := BitVec.getLsbD_of_ge v _ (by omega)
    simp [samplePair, encodeSample, he, hb, hlo, hv, BitVec.getLsbD_eq_getElem (show j < 3 by omega)]

/-- Settles O6: the decoder and the encoder on natural numbers and on bits. -/
theorem sampleOfEveryPair : Obligations.SampleOfEveryPair :=
  ⟨fun lo hi => ⟨decodeSample_toNat lo hi, Nat.le_of_lt_succ (decodeSample lo hi).isLt⟩, decodeSample_eq_iff,
    fun v ign => ⟨decodeSample_encodeSample v ign, samplePair_encodeSample v ign⟩⟩

/-- Settles O23: the effect of DEC.SAMPLE sets one entry of the sample vector to the sample in the buffer. -/
theorem decodeWritesSample : Obligations.DecodeWritesSample := by
  intro i s hs
  refine ⟨_, exec_selected (i := .decSample i) hs, ?_, fun j hj => ?_, rfl⟩
  · rw [effectOf, decSample, writeSamp_scratch, Vector.getElem_set_self, sampleOfPair_readPair_toNat]
  · have hne : i.val ≠ j.val := fun h => hj (Fin.ext h.symm)
    rw [effectOf, decSample, writeSamp_scratch, Vector.getElem_set_ne _ _ hne]

end Sys2Proof.Machine
end

section
/-! SUPPORT. The frame of the stages (spec/10_state.md R32; spec/44_selector.md R175). -/

namespace Sys2Proof.Machine

theorem readByte_of_fb_eq {s t : State} (h : t.fb = s.fb) (a : FbAddr) : readByte t a = readByte s a := by
  rw [readByte, h, readByte]

/-- The stages that compute transients write transients alone (10_state.md R32). -/
theorem effectOf_transientStage {i : SampleIdx} {o : Instr}
    (ho : o ∈ [Instr.decSample i, .prjProject i, .selQual i, .selArgmin, .selFire]) (s : State) :
    effectOf o s = { s with scratch := (effectOf o s).scratch } := by
  simp only [List.mem_cons, List.not_mem_nil, or_false] at ho
  obtain rfl | rfl | rfl | rfl | rfl := ho
  · rfl
  · rfl
  · rfl
  · exact selArgmin_frame s
  · rfl

/-- Settles O31: no stage writes the buffer, and each writes the items of its own rule. -/
theorem stageFrame : Obligations.StageFrame := by
  intro i s t
  refine ⟨fun o ho h => ?_, fun h => ?_, fun h => ?_, fun h => ?_⟩ <;> obtain ⟨-, rfl⟩ := exec_next_iff.mp h
  · have hframe := effectOf_transientStage ho s
    have hfb : (effectOf o s).fb = s.fb := by rw [hframe]
    exact ⟨hframe, readByte_of_fb_eq hfb⟩
  · exact ⟨rfl, readByte_of_fb_eq rfl⟩
  · have hframe := calFin_frame i s
    have hfb : (calFin i s).fb = s.fb := by rw [hframe]
    exact ⟨hframe, readByte_of_fb_eq hfb⟩
  · exact ⟨rfl, readByte_of_fb_eq rfl⟩

end Sys2Proof.Machine
end

section
/-! SUPPORT. The projection on natural numbers (spec/42_projector.md R141, R145). -/

namespace Sys2Proof.Machine

/-- Index 0 has the least sine (42_projector.md R146). -/
theorem le_sinq (i : SampleIdx) : 345093970 ≤ (sinq i).toNat := by
  revert i; decide

/-- Settles O24: the effect of PRJ.PROJECT sets one entry of the projected vector. -/
theorem projectWritesDistance : Obligations.ProjectWritesDistance := by
  intro i s hs
  refine ⟨_, exec_selected (i := .prjProject i) hs, ?_, fun j hj => ?_, rfl⟩
  · rw [effectOf, prjProject, writeProj_scratch, Vector.getElem_set_self, project_toNat]
  · have hne : i.val ≠ j.val := fun h => hj (Fin.ext h.symm)
    rw [effectOf, prjProject, writeProj_scratch, Vector.getElem_set_ne _ _ hne]

theorem projNat_mono {m n : Nat} (h : m ≤ n) (i : SampleIdx) : projNat m i ≤ projNat n i :=
  Nat.div_le_div_right (Nat.add_le_add_right (Nat.mul_le_mul_right _ h) _)

/-- A scaled sine of at most 1 does not raise a sample. -/
theorem projNat_le (n : Nat) (i : SampleIdx) : projNat n i ≤ n := by
  have hprod : n * (sinq i).toNat ≤ n * 2 ^ 29 := Nat.mul_le_mul_left n (sinq_le i)
  rw [projNat, ← sinq_toNat]
  omega

/-- The least sine bounds every projection from below (42_projector.md R145, R146). -/
theorem le_projNat (n : Nat) (i : SampleIdx) : (n * 345093970 + 268435456) / 536870912 ≤ projNat n i := by
  have hprod : n * 345093970 ≤ n * (sinq i).toNat := Nat.mul_le_mul_left n (le_sinq i)
  rw [projNat, ← sinq_toNat]
  omega

/-- Every sine rounds up a sample of at least 1, as it is above one half. -/
theorem projNat_eq_zero_iff (n : Nat) (i : SampleIdx) : projNat n i = 0 ↔ n = 0 := by
  have hle := projNat_le n i
  have hge := le_projNat n i
  omega

/-- Index 50 is the right angle. -/
theorem projNat_fifty (n : Nat) : projNat n 50 = n := by
  have hsine : sineTable.getD (50 : SampleIdx).val 0 = 536870912 := by decide
  rw [projNat, hsine]
  omega

/-- Settles O33: each clause on natural numbers, from the bounds of the table. -/
theorem projectionRange : Obligations.ProjectionRange := by
  intro raw i
  have hbound := project_le raw i
  have hleast := le_projNat raw.toNat i
  have hgreatest := le_projNat 8191 i
  simp only [← BitVec.toNat_inj, project_toNat] at hbound ⊢
  exact ⟨projNat_le _ i, hbound, projNat_eq_zero_iff _ i, fun raw' h => projNat_mono h i, projNat_fifty _, by omega,
    by decide, hgreatest⟩

end Sys2Proof.Machine
end

section
/-! SUPPORT. The sine table (spec/42_projector.md R142): the cosines of whole degrees, to 13 decimal places, are the
real parts of the powers of one Gaussian integer, a close approximation of the turn by 1 degree. -/

namespace Sys2Proof.Machine

/-- `10^16 · e^(iπ/180)`, each part rounded down. -/
def degreeTurn : GaussianInt := ⟨9998476951563912, 174524064372835⟩

/-- `10^13 · cos(n°)`, up to an error of 2. -/
def cosScaled (n : ℕ) : ℤ := (degreeTurn ^ n).re * 10 ^ 13 / 10 ^ (16 * n)

/-- In the unit disc each factor of a power adds at most the error of one. -/
theorem norm_pow_sub_pow_le {z w : ℂ} (hz : ‖z‖ ≤ 1) (hw : ‖w‖ ≤ 1) (n : ℕ) :
    ‖z ^ n - w ^ n‖ ≤ n * ‖z - w‖ := by
  induction n with
  | zero => simp
  | succ n ih =>
    have hsplit : z ^ (n + 1) - w ^ (n + 1) = z ^ n * (z - w) + (z ^ n - w ^ n) * w := by ring
    calc ‖z ^ (n + 1) - w ^ (n + 1)‖ ≤ ‖z ^ n‖ * ‖z - w‖ + ‖z ^ n - w ^ n‖ * ‖w‖ := by
          rw [hsplit, ← norm_mul, ← norm_mul]
          exact norm_add_le _ _
      _ ≤ 1 * ‖z - w‖ + n * ‖z - w‖ * 1 := by
          gcongr
          rw [norm_pow]
          exact pow_le_one₀ (norm_nonneg z) hz
      _ = (n + 1 : ℕ) * ‖z - w‖ := by push_cast; ring

/-- The partial sum of the exponential series is the two Taylor polynomials of degree 7. -/
theorem sum_exp_eight (x : ℝ) : ∑ m ∈ Finset.range 8, (x * Complex.I) ^ m / m.factorial =
    (⟨1 - x ^ 2 / 2 + x ^ 4 / 24 - x ^ 6 / 720, x - x ^ 3 / 6 + x ^ 5 / 120 - x ^ 7 / 5040⟩ : ℂ) := by
  rw [Complex.mk_eq_add_mul_I]
  simp only [Finset.sum_range_succ, Finset.sum_range_zero, mul_pow, Nat.factorial]
  push_cast
  norm_num [Complex.I_pow_three]
  ring

/-- Cosine and sine by their Taylor polynomials of degree 7. -/
theorem taylor_cos_sin {x : ℝ} (hx : |x| ≤ 1) :
    |Real.cos x - (1 - x ^ 2 / 2 + x ^ 4 / 24 - x ^ 6 / 720)| ≤ |x| ^ 8 / 35840 ∧
    |Real.sin x - (x - x ^ 3 / 6 + x ^ 5 / 120 - x ^ 7 / 5040)| ≤ |x| ^ 8 / 35840 := by
  have hnorm : ‖x * Complex.I‖ = |x| := by simp
  have h := Complex.exp_bound (x := x * Complex.I) (n := 8) (by rwa [hnorm]) (by decide)
  have hrest : |x| ^ 8 * ((Nat.succ 8 : ℝ) * (Nat.factorial 8 * (8 : ℕ) : ℝ)⁻¹) = |x| ^ 8 / 35840 := by
    norm_num [Nat.factorial, div_eq_mul_inv]
  rw [hnorm, sum_exp_eight, hrest] at h
  constructor
  · simpa [Complex.exp_ofReal_mul_I_re] using (Complex.abs_re_le_norm _).trans h
  · simpa [Complex.exp_ofReal_mul_I_im] using (Complex.abs_im_le_norm _).trans h

/-- Twenty decimal places of `π` give the angle of 1 degree, and with it its cosine and sine. -/
theorem cos_sin_one_degree :
    |Real.cos (Real.pi / 180) - 9998476951563912 / 10 ^ 16| ≤ 2 / 10 ^ 16 ∧
    |Real.sin (Real.pi / 180) - 174524064372835 / 10 ^ 16| ≤ 2 / 10 ^ 16 := by
  have hangle : |Real.pi / 180 - 3.14159265358979323846 / 180| ≤ 1 / 10 ^ 20 := by
    rw [abs_le]
    constructor <;> linarith [Real.pi_gt_d20, Real.pi_lt_d20]
  obtain ⟨hcos, hsin⟩ := taylor_cos_sin (x := 3.14159265358979323846 / 180) (by norm_num [abs_le])
  have hcos' := (Real.abs_cos_sub_cos_le _ _).trans hangle
  have hsin' := (Real.abs_sin_sub_sin_le _ _).trans hangle
  norm_num [abs_le] at hcos hsin hcos' hsin' ⊢
  constructor <;> constructor <;> linarith

/-- The Gaussian integer, scaled, is the turn by 1 degree, up to the errors of the two parts. -/
theorem norm_exp_degree_sub_degreeTurn :
    ‖Complex.exp ((Real.pi / 180 : ℝ) * Complex.I) - (degreeTurn : ℂ) / 10 ^ 16‖ ≤ 4 / 10 ^ 16 := by
  obtain ⟨hcos, hsin⟩ := cos_sin_one_degree
  have hparts : Complex.exp ((Real.pi / 180 : ℝ) * Complex.I) - (degreeTurn : ℂ) / 10 ^ 16 =
      ⟨Real.cos (Real.pi / 180) - 9998476951563912 / 10 ^ 16,
        Real.sin (Real.pi / 180) - 174524064372835 / 10 ^ 16⟩ := by
    rw [Complex.exp_mul_I, Complex.mk_eq_add_mul_I, degreeTurn, GaussianInt.toComplex_def']
    push_cast
    ring
  rw [hparts]
  refine (Complex.norm_le_abs_re_add_abs_im _).trans ?_
  linarith

theorem norm_degreeTurn_le : ‖(degreeTurn : ℂ) / 10 ^ 16‖ ≤ 1 := by
  have hsq : ‖(degreeTurn : ℂ)‖ ^ 2 ≤ (10 ^ 16) ^ 2 := by
    rw [← Complex.normSq_eq_norm_sq, ← GaussianInt.intCast_real_norm]
    norm_num [degreeTurn, Zsqrtd.norm]
  rw [norm_div, norm_pow, Complex.norm_ofNat]
  exact div_le_one_of_le₀ ((sq_le_sq₀ (norm_nonneg _) (by positivity)).mp hsq) (by positivity)

/-- De Moivre's formula: the cosine of `n` degrees is the real part of the `n`-th power of the turn. -/
theorem abs_cos_sub_degreeTurn_pow (n : ℕ) :
    |Real.cos (n * Real.pi / 180) - (degreeTurn ^ n).re / 10 ^ (16 * n)| ≤ n * (4 / 10 ^ 16) := by
  have hpow := (norm_pow_sub_pow_le (Complex.norm_exp_ofReal_mul_I _).le norm_degreeTurn_le n).trans
    (mul_le_mul_of_nonneg_left norm_exp_degree_sub_degreeTurn n.cast_nonneg)
  refine le_trans (le_of_eq ?_) ((Complex.abs_re_le_norm _).trans hpow)
  have hcos : (Complex.exp ((Real.pi / 180 : ℝ) * Complex.I) ^ n).re = Real.cos (n * Real.pi / 180) := by
    rw [← Complex.exp_nat_mul, ← mul_assoc, ← Complex.ofReal_natCast, ← Complex.ofReal_mul,
      Complex.exp_ofReal_mul_I_re, mul_div_assoc]
  have hturn : (((degreeTurn : ℂ) / 10 ^ 16) ^ n).re = ((degreeTurn ^ n).re / 10 ^ (16 * n) : ℝ) := by
    have hscale : ((10 ^ 16 : ℂ)) ^ n = ((10 ^ (16 * n) : ℝ) : ℂ) := by push_cast; rw [pow_mul]
    rw [div_pow, ← map_pow, hscale, Complex.div_ofReal_re, GaussianInt.intCast_re]
  rw [Complex.sub_re, hcos, hturn]

/-- The scaled integer is the real part of the power, rounded down at the thirteenth decimal place. -/
theorem cosScaled_bounds (n : ℕ) : (cosScaled n : ℝ) ≤ (degreeTurn ^ n).re / 10 ^ (16 * n) * 10 ^ 13 ∧
    ((degreeTurn ^ n).re / 10 ^ (16 * n) * 10 ^ 13 : ℝ) < cosScaled n + 1 := by
  have hpos : (0 : ℤ) < 10 ^ (16 * n) := by positivity
  have hle : cosScaled n * 10 ^ (16 * n) ≤ (degreeTurn ^ n).re * 10 ^ 13 := Int.ediv_mul_le _ hpos.ne'
  have hlt : (degreeTurn ^ n).re * 10 ^ 13 < (cosScaled n + 1) * 10 ^ (16 * n) := Int.lt_ediv_add_one_mul_self _ hpos
  rw [div_mul_eq_mul_div, le_div_iff₀ (by positivity), div_lt_iff₀ (by positivity)]
  exact ⟨by exact_mod_cast hle, by exact_mod_cast hlt⟩

/-- Each of the cosines of up to 50 degrees is its scaled integer, up to an error of 2. -/
theorem abs_cos_sub_cosScaled {n : ℕ} (hn : n ≤ 50) :
    |Real.cos (n * Real.pi / 180) * 10 ^ 13 - cosScaled n| ≤ 2 := by
  have hpow := abs_cos_sub_degreeTurn_pow n
  have hcount : (n : ℝ) ≤ 50 := by exact_mod_cast hn
  obtain ⟨hle, hlt⟩ := cosScaled_bounds n
  rw [abs_le] at hpow ⊢
  obtain ⟨hlow, hhigh⟩ := hpow
  constructor <;> linarith

/-- How many degrees the angle of an index is from the right angle, which is that of index 50. -/
def tilt (i : SampleIdx) : ℕ := ((i.val : ℤ) - 50).natAbs

/-- The sine of the angle of an index (42_projector.md R140). -/
noncomputable def sine (i : SampleIdx) : ℝ := Real.sin ((angle i : ℝ) * Real.pi / 180)

theorem sine_eq_cos (i : SampleIdx) : sine i = Real.cos (tilt i * Real.pi / 180) := by
  have htilt : (tilt i * Real.pi / 180 : ℝ) = |(angle i : ℝ) * Real.pi / 180 - Real.pi / 2| := by
    have hsub : (angle i : ℝ) * Real.pi / 180 - Real.pi / 2 = ((i.val : ℝ) - 50) * (Real.pi / 180) := by
      rw [angle]; push_cast; ring
    rw [hsub, abs_mul, abs_of_pos (by positivity : 0 < Real.pi / 180), tilt, Nat.cast_natAbs]
    push_cast
    ring
  rw [htilt, Real.cos_abs, Real.cos_sub_pi_div_two, sine]

theorem abs_sine_sub_cosScaled (i : SampleIdx) : |sine i * 10 ^ 13 - cosScaled (tilt i)| ≤ 2 := by
  have htilt : tilt i ≤ 50 := by have := i.isLt; rw [tilt]; omega
  rw [sine_eq_cos]
  exact abs_cos_sub_cosScaled htilt

/-- Each entry of the table is nearer to its scaled cosine than one half, even with the error of 2. -/
theorem abs_sinq_sub_cosScaled (i : SampleIdx) :
    2 * |((sinq i).toNat : ℤ) * 10 ^ 13 - cosScaled (tilt i) * 2 ^ 29| + 4 * 2 ^ 29 < 10 ^ 13 := by
  revert i; decide +kernel

/-- Settles O34: the scaled cosine of the tilt is within 2 of the scaled sine, and the table's entry is near enough to
it for that error. -/
theorem sineTableIsRoundedSine : Obligations.SineTableIsRoundedSine := by
  intro i
  have htable : 2 * |((sinq i).toNat : ℝ) * 10 ^ 13 - cosScaled (tilt i) * 2 ^ 29| + 4 * 2 ^ 29 < 10 ^ 13 := by
    exact_mod_cast abs_sinq_sub_cosScaled i
  have hsine := abs_le.mp (abs_sine_sub_cosScaled i)
  have habove := le_abs_self (((sinq i).toNat : ℝ) * 10 ^ 13 - cosScaled (tilt i) * 2 ^ 29)
  have hbelow := neg_abs_le (((sinq i).toNat : ℝ) * 10 ^ 13 - cosScaled (tilt i) * 2 ^ 29)
  rw [sine] at hsine
  rw [eq_comm, round_eq_iff, Set.mem_Ico, Int.cast_natCast]
  constructor <;> linarith

end Sys2Proof.Machine
end

section
/-! SUPPORT. Rounded multiples of two slopes (spec/42_projector.md R144). Where `u` and `v` round a multiple by `y`
differently, a half-integer is between the products, so that a fraction with an odd numerator and the denominator `y` is
between `2 u` and `2 v`. One fraction near to both leaves no room for another whose denominator is small. -/

namespace Sys2Proof.Machine

/-- The fraction `p / q` is so near to `α` and `β` that it alone, of the fractions with a denominator of at most `n`,
could be between these, and it is not between them or has no odd numerator. -/
structure NearFraction (n : ℕ) (p q : ℤ) (α β : ℝ) : Prop where
  den_pos : 0 < q
  near_left : n * |q * α - p| < 1
  near_right : n * |q * β - p| < 1
  side : (p % 2 = 0 ∧ q % 2 = 1) ∨ (q * α < p ∧ q * β < p) ∨ (p ≤ q * α ∧ p ≤ q * β)

section
variable {n : ℕ} {p q : ℤ} {α β : ℝ}

theorem NearFraction.symm (h : NearFraction n p q α β) : NearFraction n p q β α where
  den_pos := h.den_pos
  near_left := h.near_right
  near_right := h.near_left
  side := h.side.imp_right (Or.imp And.symm And.symm)

theorem abs_mul_sub_lt_one {y : ℕ} (hy : y ≤ n) (hα : n * |q * α - p| < 1) : |q * (α * y) - p * y| < 1 := by
  have hscale : q * (α * y) - p * y = y * (q * α - p) := by ring
  rw [hscale, abs_mul, Nat.abs_cast]
  exact (mul_le_mul_of_nonneg_right (by exact_mod_cast hy) (abs_nonneg _)).trans_lt hα

/-- A fraction `x / y` between `α` and `β` is `p / q`. -/
theorem NearFraction.eq_of_between (h : NearFraction n p q α β) {x : ℤ} {y : ℕ} (hy : y ≤ n) (hlow : α * y ≤ x)
    (hhigh : x ≤ β * y) : q * x = p * y := by
  have hq : (0 : ℝ) ≤ q := by exact_mod_cast h.den_pos.le
  obtain ⟨hbelow, -⟩ := abs_lt.mp (abs_mul_sub_lt_one hy h.near_left)
  obtain ⟨-, habove⟩ := abs_lt.mp (abs_mul_sub_lt_one hy h.near_right)
  have hqlow := mul_le_mul_of_nonneg_left hlow hq
  have hqhigh := mul_le_mul_of_nonneg_left hhigh hq
  have hgt : ((-1 : ℤ) : ℝ) < ((q * x - p * y : ℤ) : ℝ) := by push_cast; linarith
  have hlt : ((q * x - p * y : ℤ) : ℝ) < ((1 : ℤ) : ℝ) := by push_cast; linarith
  rw [Int.cast_lt] at hgt hlt
  omega

/-- No fraction with an odd numerator is above `α` and at most `β`. -/
theorem NearFraction.le_of_odd (h : NearFraction n p q α β) {x : ℤ} {y : ℕ} (hy : y ≤ n) (hx : x % 2 = 1)
    (hhigh : x ≤ β * y) : x ≤ α * y := by
  by_contra! hlow
  have heq := h.eq_of_between hy hlow.le hhigh
  have heqr : (q * x : ℝ) = p * y := by exact_mod_cast heq
  have hq : (0 : ℝ) < q := by exact_mod_cast h.den_pos
  have hqlow := mul_lt_mul_of_pos_left hlow hq
  have hqhigh := mul_le_mul_of_nonneg_left hhigh hq.le
  rw [← mul_assoc] at hqlow hqhigh
  obtain ⟨hp, hodd⟩ | ⟨-, hbelow⟩ | ⟨habove, -⟩ := h.side
  · have hparity := congrArg (· % 2) heq
    simp [Int.mul_emod, hp, hodd, hx] at hparity
  · obtain rfl | hpos := y.eq_zero_or_pos
    · simp only [Nat.cast_zero, mul_zero] at hlow hhigh
      exact absurd (hlow.trans_le hhigh) (lt_irrefl 0)
    · have hlt : q * β * y < p * y := mul_lt_mul_of_pos_right hbelow (by exact_mod_cast hpos)
      linarith
  · have hle : (p * y : ℝ) ≤ q * α * y := mul_le_mul_of_nonneg_right habove y.cast_nonneg
    linarith

theorem NearFraction.round_mul_le {u v : ℝ} (h : NearFraction n p q (2 * u) (2 * v)) {y : ℕ} (hy : y ≤ n) :
    round (y * v) ≤ round (y * u) := by
  have hhalf := round_le_add_half (y * v)
  have hodd : ((2 * round (y * v) - 1 : ℤ) : ℝ) ≤ 2 * u * y :=
    h.le_of_odd hy (by omega) (by push_cast; linarith)
  rw [round_eq (y * u), Int.le_floor]
  push_cast at hodd
  linarith

/-- The two slopes round each multiple by at most `n` the same way. -/
theorem NearFraction.round_mul_eq {u v : ℝ} (h : NearFraction n p q (2 * u) (2 * v)) {y : ℕ} (hy : y ≤ n) :
    round (y * u) = round (y * v) :=
  le_antisymm (h.symm.round_mul_le hy) (h.round_mul_le hy)

end

end Sys2Proof.Machine
end

section
/-! SUPPORT. The fixed-point projection and the real formula (spec/42_projector.md R140, R144): the two slopes of an
index are `SINQ[i] / 2^29` and the sine. -/

namespace Sys2Proof.Machine

/-- The slope of an index in the table: its sine to 29 binary places. -/
noncomputable def tableSlope (i : SampleIdx) : ℝ := (sinq i).toNat / 2 ^ 29

/-- The fixed-point projection rounds a multiple of the table's slope. -/
theorem projNat_eq_round (n : ℕ) (i : SampleIdx) : (projNat n i : ℤ) = round (n * tableSlope i) := by
  have hdiv : projNat n i * 2 ^ 29 ≤ n * (sinq i).toNat + 2 ^ 28 ∧
      n * (sinq i).toNat + 2 ^ 28 < (projNat n i + 1) * 2 ^ 29 := by
    rw [projNat, ← sinq_toNat]
    omega
  obtain ⟨hle, hlt⟩ := hdiv
  have hler : (projNat n i * 2 ^ 29 : ℝ) ≤ n * (sinq i).toNat + 2 ^ 28 := by exact_mod_cast hle
  have hltr : (n * (sinq i).toNat + 2 ^ 28 : ℝ) < (projNat n i + 1) * 2 ^ 29 := by exact_mod_cast hlt
  rw [eq_comm, round_eq_iff, Set.mem_Ico, Int.cast_natCast, tableSlope]
  constructor <;> linarith

/-- By the degrees of tilt, 0 to 50: the denominator of the fraction near to the doubles of both slopes. -/
def nearDenominators : List ℕ :=
  [1, 3283, 4104, 2189, 5542, 5650, 1004, 4226, 2723, 2721, 3719, 381, 3455, 1151, 3821, 7469, 4169] ++
  [4909, 7856, 7241, 2993, 6745, 7876, 2258, 5500, 4867, 4229, 1679, 3759, 2301, 2911, 2923, 6071, 2061] ++
  [3647, 3420, 4181, 4837, 1493, 3693, 5625, 1274, 2334, 5725, 212, 5741, 4025, 7316, 2841, 6709, 5137]

def nearDen (i : SampleIdx) : ℤ := nearDenominators.getD (tilt i) 0

/-- The numerator of the near fraction: twice the table's slope, times the denominator, rounded. -/
def nearNum (i : SampleIdx) : ℤ := (nearDen i * (sinq i).toNat + 2 ^ 27) / 2 ^ 28

theorem nearDen_pos (i : SampleIdx) : 0 < nearDen i := by
  revert i; decide

/-- The check of the near fraction against the table. -/
theorem sinq_near (i : SampleIdx) : 8191 * |nearDen i * (sinq i).toNat - nearNum i * 2 ^ 28| < 2 ^ 28 := by
  revert i; decide +kernel

/-- The check of the near fraction against the scaled cosine, with the error of this. -/
theorem cosScaled_near (i : SampleIdx) :
    8191 * (|nearDen i * (2 * cosScaled (tilt i)) - nearNum i * 10 ^ 13| + 4 * nearDen i) < 10 ^ 13 := by
  revert i; decide +kernel

/-- The check that the near fraction is not between the slopes, or has no odd numerator. -/
theorem sinq_cosScaled_side (i : SampleIdx) : (nearNum i % 2 = 0 ∧ nearDen i % 2 = 1) ∨
    (nearDen i * (sinq i).toNat < nearNum i * 2 ^ 28 ∧
      nearDen i * (2 * cosScaled (tilt i) + 4) < nearNum i * 10 ^ 13) ∨
    (nearNum i * 2 ^ 28 ≤ nearDen i * (sinq i).toNat ∧
      nearNum i * 10 ^ 13 ≤ nearDen i * (2 * cosScaled (tilt i) - 4)) := by
  revert i; decide +kernel

theorem nearDen_mul_tableSlope (i : SampleIdx) :
    (nearDen i : ℝ) * (2 * tableSlope i) * 2 ^ 28 = nearDen i * (sinq i).toNat := by
  rw [tableSlope]
  ring

/-- The table's slope is near to the fraction. -/
theorem tableSlope_near (i : SampleIdx) :
    ((8191 : ℕ) : ℝ) * |(nearDen i : ℝ) * (2 * tableSlope i) - nearNum i| < 1 := by
  have hint : 8191 * |(nearDen i : ℝ) * (sinq i).toNat - nearNum i * 2 ^ 28| < 2 ^ 28 := by
    exact_mod_cast sinq_near i
  rw [← nearDen_mul_tableSlope, ← sub_mul, abs_mul, abs_of_pos (by positivity : (0 : ℝ) < 2 ^ 28)] at hint
  push_cast
  linarith

/-- The error of the scaled cosine, in the multiple of the sine that is compared to the fraction. -/
theorem abs_nearDen_mul_sine_sub (i : SampleIdx) :
    |(nearDen i : ℝ) * (2 * sine i) * 10 ^ 13 - nearDen i * (2 * cosScaled (tilt i))| ≤ (4 * nearDen i : ℝ) := by
  have hq : (0 : ℝ) < nearDen i := by exact_mod_cast nearDen_pos i
  have hscale : nearDen i * (2 * sine i) * 10 ^ 13 - nearDen i * (2 * cosScaled (tilt i)) =
      2 * nearDen i * (sine i * 10 ^ 13 - cosScaled (tilt i)) := by ring
  rw [hscale, abs_mul, abs_of_pos (by positivity)]
  linarith [mul_le_mul_of_nonneg_left (abs_sine_sub_cosScaled i) hq.le]

/-- The sine is near to the fraction. -/
theorem sine_near (i : SampleIdx) : ((8191 : ℕ) : ℝ) * |(nearDen i : ℝ) * (2 * sine i) - nearNum i| < 1 := by
  have hint : 8191 * (|(nearDen i : ℝ) * (2 * cosScaled (tilt i)) - nearNum i * 10 ^ 13| + 4 * (nearDen i : ℝ)) <
      10 ^ 13 := by
    exact_mod_cast cosScaled_near i
  have htri := abs_sub_le ((nearDen i : ℝ) * (2 * sine i) * 10 ^ 13)
    (nearDen i * (2 * cosScaled (tilt i)) : ℝ) (nearNum i * 10 ^ 13)
  have hsine := abs_nearDen_mul_sine_sub i
  rw [← sub_mul, abs_mul, abs_of_pos (by positivity : (0 : ℝ) < 10 ^ 13)] at htri
  push_cast
  linarith

/-- The fraction of an index is near to the doubles of its two slopes. -/
theorem slopes_nearFraction (i : SampleIdx) :
    NearFraction 8191 (nearNum i) (nearDen i) (2 * tableSlope i) (2 * sine i) where
  den_pos := nearDen_pos i
  near_left := tableSlope_near i
  near_right := sine_near i
  side := by
    have hsine := abs_le.mp (abs_nearDen_mul_sine_sub i)
    have hslope := nearDen_mul_tableSlope i
    obtain heven | ⟨htable, hcos⟩ | ⟨htable, hcos⟩ := sinq_cosScaled_side i
    · exact .inl heven
    · rify at htable hcos
      refine .inr (.inl ⟨?_, ?_⟩) <;> linarith
    · rify at htable hcos
      refine .inr (.inr ⟨?_, ?_⟩) <;> linarith

/-- Settles O35: the projection rounds a multiple of the table's slope, and the near fraction shows that the sine rounds
it the same way. -/
theorem projectionIsRealFormula : Obligations.ProjectionIsRealFormula := by
  intro raw i
  rw [project_toNat, projNat_eq_round]
  exact (slopes_nearFraction i).round_mul_eq (Nat.le_of_lt_succ raw.isLt)

end Sys2Proof.Machine
end

section
/-! SUPPORT. The calibrator's stages (spec/43_calibrator.md R156 to R158) and the frozen baseline (R159). -/

namespace Sys2Proof.Machine

/-! ### One entry of the baseline -/

theorem writeRef_get_self (i : SampleIdx) (d : Dist) (s : State) : (writeRef i d s).ref[i.val] = d := by
  rw [writeRef_ref, Vector.getElem_set_self]

theorem writeRef_get_ne {i j : SampleIdx} (h : j ≠ i) (d : Dist) (s : State) :
    (writeRef i d s).ref[j.val] = s.ref[j.val] := by
  have hne : i.val ≠ j.val := fun e => h (Fin.ext e.symm)
  rw [writeRef_ref, Vector.getElem_set_ne _ _ hne]

/-- The baseline and the phase after CAL.FIN(i), the closing write at index 97 among them. -/
theorem calFin_eq (i : SampleIdx) (s : State) : calFin i s =
    { writeRef i (finalise s.cfg s.ref[i.val]) s with phase := if i = 97 then .armed else s.phase } := by
  rw [calFin]
  split <;> rfl

/-- Settles O25: the effect of CAL.MIN is one write of the baseline. -/
theorem calMinLowersBaseline : Obligations.CalMinLowersBaseline := by
  intro i s hs hp
  refine ⟨calMin i s, exec_selected (i := .calMin i) ⟨hs, hp⟩, ?_, fun j hj => writeRef_get_ne hj _ s, rfl⟩
  rw [calMin, writeRef_get_self, minDist_toNat]

/-- Settles O26: the effect of CAL.FIN is one write of the baseline, and at index 97 the write of the phase. -/
theorem calFinFinalisesBaseline : Obligations.CalFinFinalisesBaseline := by
  intro i s hs hp hfc
  refine ⟨calFin i s, exec_selected (i := .calFin i) ⟨hs, hp, hfc⟩, ?_, fun j hj => ?_, ?_, calFin_frame i s⟩
  · rw [calFin_eq, writeRef_get_self, finalise_toNat]
  · rw [calFin_eq]
    exact writeRef_get_ne hj _ s
  · rw [calFin_eq, hp]

/-- Settles O32: the finalisation on words is the rule's on natural numbers, whose two branches give the bounds. -/
theorem finalisationBounds : Obligations.FinalisationBounds := by
  intro cfg r
  rw [finalise_toNat, finNat]
  refine ⟨rfl, ?_, fun hmargin hr => ?_, fun hmargin => ?_⟩
  · split <;> omega
  · rw [Nat.min_eq_right hr, if_pos hmargin]
  · exact if_neg (by omega)

/-! ### The frozen baseline -/

/-- Once ARMED a frame leaves the baseline, the count and the phase. -/
theorem frmDispatch_frozen {s : State} (h : s.phase = .armed) :
    (frmDispatch s).ref = s.ref ∧ (frmDispatch s).fc = s.fc ∧ (frmDispatch s).phase = .armed := by
  obtain ⟨hfc, hphase⟩ := frmDispatch_count_armed h
  exact ⟨frmDispatch_ref_armed h, hfc, hphase.trans h⟩

/-- Settles O50: the calibrator's stages are not selected while ARMED, a frame passes the calibrator by, and no other
effect but RESET's writes the three items. -/
theorem baselineFrozenWhenArmed : Obligations.BaselineFrozenWhenArmed := by
  intro i s t harmed hi h
  obtain ⟨hsel, rfl⟩ := exec_next_iff.mp h
  have not_warming : s.phase ≠ .warmingUp := by simp [harmed]
  cases i with
  | reset => exact absurd rfl hi
  | calMin j => exact absurd hsel.2 not_warming
  | calFin j => exact absurd hsel.2.1 not_warming
  | frmDispatch => exact frmDispatch_frozen harmed
  | payLast b => exact frmDispatch_frozen (s := completeFrame b s) harmed
  | selArgmin =>
    rw [effectOf, selArgmin_frame]
    exact ⟨rfl, rfl, harmed⟩
  | _ => exact ⟨rfl, rfl, harmed⟩

end Sys2Proof.Machine
end

section
/-! SUPPORT. The first command of a session (spec/43_calibrator.md R161): the arming frame is part of the baseline it is
compared with. -/

namespace Sys2Proof.Machine

/-- A distance that was folded into an entry is not below the finalised entry. -/
theorem not_qualNat_finNat_min (cfg : Config) (r p : Nat) : ¬ QualNat cfg p (finNat cfg (min r p)) := fun ⟨hlt, _⟩ =>
  absurd hlt (Nat.not_lt.mpr ((finNat_le cfg _).1.trans (Nat.min_le_right r p)))

/-- No index of the arming frame qualifies. -/
theorem not_qualNat_armingSelection (s : State) (i : SampleIdx) :
    ¬ QualNat (armingSelection s).cfg (armingSelection s).scratch.proj[i.val].toNat
      (armingSelection s).ref[i.val].toNat := by
  simp only [armingSelection, projected_cfg, projected_proj, finalisedRef_toNat, loweredRef_toNat]
  exact not_qualNat_finNat_min _ _ _

/-- The frame that ends the warm-up, with its command (43_calibrator.md R161). -/
theorem frmDispatch_arming_eq {s : State} (h : s.phase = .warmingUp) (hfc : (s.fc + 1).toNat = s.cfg.warmupFrames) :
    frmDispatch s = { s with
      ref := finalisedRef s, fc := s.fc + 1, phase := .armed, cmd := 0x00, cv := true, scratch := Scratch.clear } := by
  obtain ⟨best, idx, hnear, heq⟩ := frmDispatch_arming h hfc
  have hcmd : encodeCommand idx (selQualAt (armingSelection s) idx) = 0x00 := by
    rcases nearestCommand_of_nearestOf hnear with ⟨-, hc⟩ | ⟨i, hi, -⟩
    · exact hc
    · exact absurd hi (not_qualNat_armingSelection s i)
  rw [heq, hcmd]

/-- A session before its first command: WARMING_UP, and nothing pending. -/
def NoCommandYet (s : State) : Prop := s.phase = .warmingUp ∧ s.cv = false

/-- The state has left the time before the first command, and the command presented is `0x00`. -/
def FirstCommandPending (s : State) : Prop := s.cv = true ∧ s.cmd = 0x00

namespace NoCommandYet

variable {s : State}

theorem resetState (s : State) : NoCommandYet (resetState s) := ⟨rfl, rfl⟩

theorem frmDispatch (h : NoCommandYet s) : NoCommandYet (frmDispatch s) ∨ FirstCommandPending (frmDispatch s) := by
  obtain ⟨hp, hcv⟩ := h
  by_cases hfc : (s.fc + 1).toNat = s.cfg.warmupFrames
  · rw [frmDispatch_arming_eq hp hfc]
    exact .inr ⟨rfl, rfl⟩
  · rw [frmDispatch_warmup hp hfc]
    exact .inl ⟨hp, hcv⟩

theorem byte (h : NoCommandYet s) (hs : SourceAwaited s) (b : Byte) :
    NoCommandYet (advance s (.byte b)) ∨ FirstCommandPending (advance s (.byte b)) := by
  by_cases hmp : s.mp = 6
  · by_cases hp : s.pcnt = 195
    · rw [advance_byte_last b hs hmp hp]
      exact frmDispatch (s := completeFrame b s) h
    · rw [advance_byte_put b hs hmp hp]
      exact .inl h
  · rw [advance_byte_hunting b hs hmp]
    exact .inl h

/-- Every event, admitted or not, keeps the session before its first command or presents `0x00`. -/
theorem advance (h : NoCommandYet s) (e : InEvent) :
    NoCommandYet (advance s e) ∨ FirstCommandPending (advance s e) := by
  have not_sink : ¬ SinkAwaited s := fun hs => by simpa [h.2] using hs.2
  cases ha : admits s e with
  | false =>
    rw [advance_held ha]
    exact .inl h
  | true =>
    cases e with
    | byte b => exact h.byte ((awaitsSource_iff s).mp ha) b
    | eos =>
      rw [advance_eos ((awaitsSource_iff s).mp ha)]
      split <;> exact .inl h
    | ioErr =>
      rw [advance_ioErr ((awaitsSource_iff s).mp ha)]
      exact .inl h
    | sinkAck | sinkFail => exact absurd ((awaitsSink_iff s).mp ha) not_sink
    | reset =>
      rw [advance_reset]
      exact .inl (resetState s)

/-- The first command of every program, from before the first command on. -/
theorem first_eq_zero (h : NoCommandYet s) {program : List InEvent} {c : Byte} {rest : List Byte}
    (hout : runOutput s program = c :: rest) : c = 0x00 := by
  induction program generalizing s with
  | nil => cases hout
  | cons e es ih =>
    rw [runOutput_cons] at hout
    rcases h.advance e with hnext | ⟨hcv, hcmd⟩
    · have hevent : eventOutput s e = [] := by simp [eventOutput, hnext.2]
      rw [hevent] at hout
      exact ih hnext hout
    · have hevent : eventOutput s e = [0x00] := by rw [eventOutput, if_pos ⟨h.2, hcv⟩, hcmd]
      rw [hevent] at hout
      exact (List.cons.inj hout).1.symm

end NoCommandYet

/-- Settles O58: no event before the first command presents another one than the arming frame's, and a byte stream is a
program with its acknowledgements. -/
theorem firstCommandNeverFires : Obligations.FirstCommandNeverFires := by
  refine ⟨not_qualNat_finNat_min, fun s u bytes c rest hreset hout => ?_, fun s u program c rest hreset hout => ?_⟩ <;>
    obtain ⟨-, rfl⟩ := exec_next_iff.mp hreset
  · rw [effectOf, runBytes_eq_runProgram _ bytes rfl rfl] at hout
    exact (NoCommandYet.resetState s).first_eq_zero hout
  · exact (NoCommandYet.resetState s).first_eq_zero hout

end Sys2Proof.Machine
end

section
/-! SUPPORT. The baseline over the frames of a session (spec/43_calibrator.md R162). -/

namespace Sys2Proof.Machine

/-! ### The least distance over a list of frames -/

theorem minProj_snoc (frames : List (SampleIdx → Nat)) (d : SampleIdx → Nat) (i : SampleIdx) :
    minProj (frames ++ [d]) i = min (minProj frames i) (d i) := by
  simp [minProj]

theorem minProj_le_of_mem {frames : List (SampleIdx → Nat)} {d : SampleIdx → Nat} (h : d ∈ frames) (i : SampleIdx) :
    minProj frames i ≤ d i := by
  induction frames using List.reverseRecOn with
  | nil => cases h
  | append_singleton frames e ih =>
    rw [minProj_snoc]
    rcases List.mem_append.mp h with h | h
    · exact (Nat.min_le_left ..).trans (ih h)
    · rw [List.mem_singleton.mp h]
      exact Nat.min_le_right ..

theorem frameProjNat_le (s : State) (i : SampleIdx) : frameProjNat s i ≤ 8191 := by
  rw [← projOf_toNat]
  exact projOf_le s i

/-- The distances of a completed frame are projected ones. -/
theorem le_of_mem_completedFrames {s : State} {bytes : List Byte} {d : SampleIdx → Nat}
    (h : d ∈ completedFrames s bytes) (i : SampleIdx) : d i ≤ 8191 := by
  induction bytes generalizing s with
  | nil => cases h
  | cons b bs ih =>
    simp only [completedFrames] at h
    split at h
    · rcases List.mem_cons.mp h with rfl | h
      · exact frameProjNat_le ..
      · exact ih h
    · exact ih h

/-! ### One byte with its acknowledgement -/

theorem runBytes_cons_final (s : State) (b : Byte) (bs : List Byte) :
    (runBytes s (b :: bs)).1 = (runBytes (runBytes s [b]).1 bs).1 := by
  simp only [runBytes]
  split <;> rfl

/-- A byte that presents no command is not followed by an acknowledgement. -/
theorem runBytes_single_of_not_cv {s : State} {b : Byte} (h : (advance s (.byte b)).cv = false) :
    (runBytes s [b]).1 = advance s (.byte b) := by
  simp only [runBytes, h, Bool.false_eq_true, if_false]

/-- The last byte of a payload, with the acknowledgement of the command its frame may have presented. -/
theorem runBytes_single_last {s : State} (hs : SourceAwaited s) (hmp : s.mp = 6) (hp : s.pcnt = 195) (b : Byte) :
    (runBytes s [b]).1 = { frmDispatch (completeFrame b s) with cv := false } := by
  have hbyte := advance_byte_last b hs hmp hp
  cases hcv : (frmDispatch (completeFrame b s)).cv with
  | false => rw [runBytes_single_of_not_cv (by rw [hbyte, hcv]), hbyte, ← hcv]
  | true =>
    have hh : (frmDispatch (completeFrame b s)).halted = false := (frmDispatch_halted _).trans hs.1
    simp only [runBytes, hbyte, hcv, if_true, advance_sinkAck hh hcv]

/-! ### A session after a number of frames -/

/-- A session of configuration `cfg` that has completed `frames` and awaits a byte: during the warm-up every entry of the
baseline is the least distance so far, and after it the finalised least distance of the warm-up's frames. -/
structure SessionAfter (cfg : Config) (frames : List (SampleIdx → Nat)) (s : State) : Prop where
  awaited : SourceAwaited s
  config : s.cfg = cfg
  warming : frames.length < cfg.warmupFrames →
    s.phase = .warmingUp ∧ s.fc.toNat = frames.length ∧ ∀ i : SampleIdx, s.ref[i.val].toNat = minProj frames i
  armed : cfg.warmupFrames ≤ frames.length →
    s.phase = .armed ∧
      ∀ i : SampleIdx, s.ref[i.val].toNat = finNat cfg (minProj (frames.take cfg.warmupFrames) i)

namespace SessionAfter

variable {cfg : Config} {frames : List (SampleIdx → Nat)} {s : State}

theorem resetState (s : State) : SessionAfter s.cfg [] (resetState s) where
  awaited := ⟨rfl, rfl⟩
  config := rfl
  warming _ := ⟨rfl, rfl, fun i => by rw [resetState_ref, Vector.getElem_replicate]; rfl⟩
  armed h := absurd h (Nat.not_le.mpr s.cfg.warmup_pos)

/-- The session looks at the baseline, the count, the phase and the registers of admission alone. -/
theorem of_kept {t : State} (h : SessionAfter cfg frames s) (hawaited : SourceAwaited t) (hcfg : t.cfg = s.cfg)
    (hfc : t.fc = s.fc) (hphase : t.phase = s.phase) (href : t.ref = s.ref) : SessionAfter cfg frames t where
  awaited := hawaited
  config := hcfg.trans h.config
  warming := by rw [hfc, hphase, href]; exact h.warming
  armed := by rw [hphase, href]; exact h.armed

/-- The count of a frame of the warm-up does not wrap (10_state.md R27). -/
theorem count_succ (h : SessionAfter cfg frames s) (hlt : frames.length < cfg.warmupFrames) :
    (s.fc + 1).toNat = frames.length + 1 := by
  obtain ⟨-, hfc, -⟩ := h.warming hlt
  have hle := cfg.warmup_le
  have hone : (1 : BitVec 8).toNat = 1 := rfl
  rw [BitVec.toNat_add, hone, hfc]
  omega

/-- During the warm-up a frame lowers the baseline to the least distance of one more frame. -/
theorem loweredRef_toNat (h : SessionAfter cfg frames s) (hlt : frames.length < cfg.warmupFrames) (i : SampleIdx) :
    (loweredRef s)[i.val].toNat = minProj (frames ++ [frameProjNat s]) i := by
  obtain ⟨-, -, href⟩ := h.warming hlt
  rw [Machine.loweredRef_toNat, href, projOf_toNat, minProj_snoc]

/-- A frame inside the warm-up. -/
theorem frmDispatch_inside (h : SessionAfter cfg frames s) (hlt : frames.length + 1 < cfg.warmupFrames) :
    SessionAfter cfg (frames ++ [frameProjNat s]) { frmDispatch s with cv := false } := by
  have hlen : (frames ++ [frameProjNat s]).length = frames.length + 1 := List.length_append
  have hbefore : frames.length < cfg.warmupFrames := Nat.lt_of_succ_lt hlt
  have hcount := h.count_succ hbefore
  have hphase := (h.warming hbefore).1
  rw [frmDispatch_warmup hphase (by rw [hcount, h.config]; exact hlt.ne)]
  exact ⟨⟨h.awaited.1, rfl⟩, h.config, fun _ => ⟨hphase, hcount.trans hlen.symm, h.loweredRef_toNat hbefore⟩,
    fun ha => absurd (hlen ▸ ha) (Nat.not_le.mpr hlt)⟩

/-- The frame that ends the warm-up, with the acknowledgement of its command. -/
theorem frmDispatch_arming (h : SessionAfter cfg frames s) (hlast : frames.length + 1 = cfg.warmupFrames) :
    SessionAfter cfg (frames ++ [frameProjNat s]) { frmDispatch s with cv := false } := by
  have hlen : (frames ++ [frameProjNat s]).length = cfg.warmupFrames := List.length_append.trans hlast
  have hbefore : frames.length < cfg.warmupFrames := Nat.lt_of_succ_le hlast.le
  rw [frmDispatch_arming_eq (h.warming hbefore).1 (by rw [h.count_succ hbefore, hlast, h.config])]
  refine ⟨⟨h.awaited.1, rfl⟩, h.config, fun hw => absurd hlen hw.ne, fun _ => ⟨rfl, fun i => ?_⟩⟩
  rw [finalisedRef_toNat, h.loweredRef_toNat hbefore, h.config, List.take_of_length_le hlen.le]

/-- A frame while ARMED, with the acknowledgement of its command. -/
theorem frmDispatch_live (h : SessionAfter cfg frames s) (hge : cfg.warmupFrames ≤ frames.length) :
    SessionAfter cfg (frames ++ [frameProjNat s]) { frmDispatch s with cv := false } := by
  have hlen : (frames ++ [frameProjNat s]).length = frames.length + 1 := List.length_append
  obtain ⟨hphase, href⟩ := h.armed hge
  obtain ⟨best, idx, -, heq⟩ := Machine.frmDispatch_live hphase
  rw [heq]
  refine ⟨⟨h.awaited.1, rfl⟩, h.config, fun hw => absurd hw (by omega), fun _ => ⟨hphase, fun i => ?_⟩⟩
  rw [List.take_append_of_le_length hge]
  exact href i

/-- One more frame, with its acknowledgement. -/
theorem frmDispatch (h : SessionAfter cfg frames s) :
    SessionAfter cfg (frames ++ [frameProjNat s]) { frmDispatch s with cv := false } := by
  rcases Nat.lt_or_ge frames.length cfg.warmupFrames with hlt | hge
  · rcases Nat.lt_or_eq_of_le hlt with hinside | hlast
    · exact h.frmDispatch_inside hinside
    · exact h.frmDispatch_arming hlast
  · exact h.frmDispatch_live hge

/-- A byte that does not complete a frame. -/
theorem byte_inside (h : SessionAfter cfg frames s) (hne : ¬ (s.mp = 6 ∧ s.pcnt = 195)) (b : Byte) :
    SessionAfter cfg frames (runBytes s [b]).1 := by
  have hs := h.awaited
  by_cases hmp : s.mp = 6
  · have hbyte := advance_byte_put b hs hmp fun hp => hne ⟨hmp, hp⟩
    rw [runBytes_single_of_not_cv (by rw [hbyte]; exact hs.2), hbyte]
    exact h.of_kept hs rfl rfl rfl rfl
  · have hbyte := advance_byte_hunting b hs hmp
    rw [runBytes_single_of_not_cv (by rw [hbyte]; exact hs.2), hbyte]
    exact h.of_kept hs rfl rfl rfl rfl

/-- The byte that completes a frame. -/
theorem byte_last (h : SessionAfter cfg frames s) (hmp : s.mp = 6) (hp : s.pcnt = 195) (b : Byte) :
    SessionAfter cfg (frames ++ [frameProjNat (writeByte 195 b s)]) (runBytes s [b]).1 := by
  have hcomplete : SessionAfter cfg frames (completeFrame b s) := h.of_kept h.awaited rfl rfl rfl rfl
  rw [runBytes_single_last h.awaited hmp hp]
  exact hcomplete.frmDispatch

/-- Any byte stream adds the frames it completes. -/
theorem run (h : SessionAfter cfg frames s) (bytes : List Byte) :
    SessionAfter cfg (frames ++ completedFrames s bytes) (runBytes s bytes).1 := by
  induction bytes generalizing frames s with
  | nil => simpa [completedFrames, runBytes] using h
  | cons b bs ih =>
    rw [runBytes_cons_final, completedFrames]
    by_cases hlast : s.mp = 6 ∧ s.pcnt = 195
    · simpa [hlast] using ih (h.byte_last hlast.1 hlast.2 b)
    · simpa only [hlast, if_false] using ih (h.byte_inside hlast b)

end SessionAfter

/-- Settles O59: the session keeps the closed form from the reset on, frame by frame, and a warm-up of at least one frame
has a distance below the sentinel. -/
theorem baselineClosedForm : Obligations.BaselineClosedForm := by
  intro s u bytes hreset
  obtain ⟨-, rfl⟩ := exec_next_iff.mp hreset
  have hsession : SessionAfter s.cfg (completedFrames (resetState s) bytes) (runBytes (resetState s) bytes).1 :=
    (SessionAfter.resetState s).run bytes
  refine ⟨fun _ hlt => (hsession.warming hlt).2.2, fun hge i => ⟨(hsession.armed hge).2 i, ?_⟩⟩
  have hpos := s.cfg.warmup_pos
  have hfirst : 0 < ((completedFrames (resetState s) bytes).take s.cfg.warmupFrames).length := by
    rw [List.length_take]
    exact Nat.lt_min.mpr ⟨hpos, hpos.trans hge⟩
  have hmem := List.getElem_mem hfirst
  exact (minProj_le_of_mem hmem i).trans (le_of_mem_completedFrames (List.mem_of_mem_take hmem) i)

end Sys2Proof.Machine
end

section
/-! SUPPORT. The selector on natural numbers (spec/44_selector.md R176, R178): the candidate values, the scan's result,
and the command of a lone candidate (R183). -/

namespace Sys2Proof.Machine

/-! ### The stages -/

/-- Settles O27: the effect of SEL.QUAL sets one entry of the qualifying mask to the test. -/
theorem qualWritesThreePartTest : Obligations.QualWritesThreePartTest := by
  intro i s hs hp
  refine ⟨_, exec_selected (i := .selQual i) ⟨hs, hp⟩, ?_, fun j hj => ?_, rfl⟩
  · rw [effectOf, selQual, writeQual_scratch, Vector.getElem_set_self]
    exact qualifies_iff ..
  · have hne : i.val ≠ j.val := fun h => hj (Fin.ext h.symm)
    rw [effectOf, selQual, writeQual_scratch, Vector.getElem_set_ne _ _ hne]

/-- `VAL[i]` as a number; `INF` is 65535 (44_selector.md R177). -/
theorem candidate_toNat (s : State) (i : SampleIdx) :
    (candidate s i).toNat = if s.scratch.qual[i.val] then s.scratch.proj[i.val].toNat else 65535 := by
  have hinf : infDist.toNat = 65535 := rfl
  rw [candidate, apply_ite BitVec.toNat, hinf]

namespace nearestOf

variable {c : SampleIdx → Dist} {best : Dist} {idx : SampleIdx}

/-- With every value at `INF` the scan keeps its start values. -/
theorem eq_start (h : nearestOf c 98 best idx) (hall : ∀ i, (c i).toNat = 65535) : best = infDist ∧ idx = 0 := by
  obtain ⟨-, hstart | ⟨hlt, hbest, -⟩⟩ := h
  · exact hstart
  · have hinf : c idx = infDist := BitVec.eq_of_toNat_eq (hall idx)
    rw [← hbest, hinf] at hlt
    exact absurd hlt (BitVec.lt_irrefl _)

/-- With some value below `INF` the scan ends at the least value and its first index. -/
theorem first_least (h : nearestOf c 98 best idx) (hsome : ∃ i, (c i).toNat < 65535) :
    best = c idx ∧ (∀ j, c idx ≤ c j) ∧ ∀ j, j < idx → c idx < c j := by
  obtain ⟨hmin, ⟨rfl, -⟩ | ⟨-, rfl, -, hfirst⟩⟩ := h
  · obtain ⟨i, hi⟩ := hsome
    exact absurd hi (Nat.not_lt.mpr (hmin i i.isLt))
  · exact ⟨rfl, fun j => hmin j j.isLt, hfirst⟩

end nearestOf

/-- Settles O28: the scan's result, with the candidate values as numbers. -/
theorem argminFindsNearest : Obligations.ArgminFindsNearest := by
  intro s hs hp val
  have hval : val = fun i => (candidate s i).toNat := funext fun i => (candidate_toNat s i).symm
  obtain ⟨best, idx, heq, hnear⟩ := selArgmin_spec s
  refine ⟨_, exec_selected (i := .selArgmin) ⟨hs, hp⟩, ?_⟩
  rw [effectOf, heq, hval]
  refine ⟨hnear.eq_start, fun hsome => ?_, rfl⟩
  obtain ⟨hbest, hleast, hfirst⟩ := hnear.first_least hsome
  exact ⟨congrArg BitVec.toNat hbest, hleast, hfirst⟩

/-- Settles O29: the effect of SEL.FIRE is the assignment of the rule. -/
theorem fireRevalidatesSelected : Obligations.FireRevalidatesSelected := fun _ hs hp => exec_selected ⟨hs, hp⟩

/-- Settles O30: the effect of CMD.EMIT presents the encoded command, whose value O7 gives. -/
theorem emitPresentsCommand : Obligations.EmitPresentsCommand := fun s hs hp =>
  ⟨_, exec_selected (i := .cmdEmit) ⟨hs, hp⟩, (commandByteFields s.scratch.idx s.scratch.fire).1, rfl⟩

/-! ### A lone candidate -/

/-- A lone candidate is the nearest one, so the command fires at its index. -/
theorem NearestCommand.of_lone {q : SampleIdx → Prop} {d : SampleIdx → Nat} {c : Byte} {i : SampleIdx}
    (h : NearestCommand q d c) (hi : q i) (hlone : ∀ j, j ≠ i → ¬ q j) : c.toNat = 128 + i.val := by
  obtain ⟨hnone, -⟩ | ⟨k, hk, -, -, hc⟩ := h
  · exact absurd hi (hnone i)
  · have hki : k = i := by_contra fun hne => hlone k hne hk
    rw [hc, hki]

/-- A distance one below a baseline of 2 to `MAX_THRESHOLD` qualifies: at a baseline of 1 it would be 0
(44_selector.md R183). -/
theorem qualNat_pred {cfg : Config} {ref : Nat} (hlo : 2 ≤ ref) (hhi : ref ≤ cfg.maxThreshold) :
    QualNat cfg (ref - 1) ref := by
  unfold QualNat
  omega

/-- A distance at or above its baseline does not qualify. -/
theorem not_qualNat_of_le {cfg : Config} {proj ref : Nat} (h : ref ≤ proj) : ¬ QualNat cfg proj ref :=
  fun ⟨hlt, _⟩ => Nat.not_lt.mpr h hlt

/-- Settles O41: the intruder's index is the only one that qualifies. -/
theorem singleIntruderDetected : Obligations.SingleIntruderDetected := by
  intro s i hs hp hhi hlo hdist hothers
  obtain ⟨hcv, hcommand⟩ := frmDispatch_command_armed hp
  refine ⟨frmDispatch s, exec_selected (i := .frmDispatch) hs, hcv, hcommand.of_lone ?_ fun j hj => ?_⟩
  · rw [hdist]
    exact qualNat_pred hlo hhi
  · exact not_qualNat_of_le (hothers j hj)

end Sys2Proof.Machine
end

section
/-! SUPPORT. Frame processing (spec/45_pipeline.md R200, R201): the frame's three outcomes on natural numbers, and what
they depend on. -/

namespace Sys2Proof.Machine

/-! ### The three outcomes -/

/-- Settles O36: the baseline is lowered to the distances of the frame in the buffer. -/
theorem dispatchDuringWarmup : Obligations.DispatchDuringWarmup := by
  intro s hs hp hfc
  refine ⟨_, exec_selected (i := .frmDispatch) hs, ?_⟩
  rw [effectOf, frmDispatch_warmup hp hfc]
  exact ⟨fun i => by rw [loweredRef_toNat, projOf_toNat], rfl⟩

/-- Settles O37: the lowered baseline is finalised, and no index of the arming frame qualifies against it. -/
theorem dispatchArmsBlock : Obligations.DispatchArmsBlock := by
  intro s hs hp hfc
  refine ⟨_, exec_selected (i := .frmDispatch) hs, ?_⟩
  rw [effectOf, frmDispatch_arming_eq hp hfc]
  exact ⟨fun i => by rw [finalisedRef_toNat, loweredRef_toNat, projOf_toNat], rfl⟩

/-- A live frame changes `cmd`, `cv` and the transients alone. -/
theorem frmDispatch_live_frame {s : State} (h : s.phase = .armed) :
    frmDispatch s = { s with cmd := (frmDispatch s).cmd, cv := true, scratch := Scratch.clear } := by
  obtain ⟨best, idx, -, heq⟩ := frmDispatch_live h
  rw [heq]

/-- Settles O38: the command is the scan's nearest candidate, and the rest is the live frame's frame rule. -/
theorem dispatchSelectsTarget : Obligations.DispatchSelectsTarget := fun _ hs hp =>
  ⟨_, exec_selected (i := .frmDispatch) hs, (frmDispatch_command_armed hp).2, frmDispatch_live_frame hp⟩

/-! ### What the outcome depends on -/

/-- At most one byte is the command of a set of candidates: two nearest candidates of lowest index are the same one. -/
theorem NearestCommand.unique {q : SampleIdx → Prop} {d : SampleIdx → Nat} {c c' : Byte}
    (h : NearestCommand q d c) (h' : NearestCommand q d c') : c = c' := by
  obtain ⟨hnone, rfl⟩ | ⟨i, hi, hleast, hfirst, hc⟩ := h <;>
    obtain ⟨hnone', rfl⟩ | ⟨j, hj, hleast', hfirst', hc'⟩ := h'
  · rfl
  · exact absurd hj (hnone j)
  · exact absurd hi (hnone' i)
  · have hij : i = j := by
      rcases lt_trichotomy i j with hlt | heq | hlt
      · exact absurd (hfirst' i hlt hi) (Nat.not_lt.mpr (hleast j hj))
      · exact heq
      · exact absurd (hfirst j hlt hj) (Nat.not_lt.mpr (hleast' i hi))
    exact BitVec.eq_of_toNat_eq (by rw [hc, hc', hij])

/-- Two states with the same configuration, phase, count, baseline and frame (45_pipeline.md R201). -/
structure SameFrameInputs (s s' : State) : Prop where
  cfg : s.cfg = s'.cfg
  phase : s.phase = s'.phase
  fc : s.fc = s'.fc
  ref : s.ref = s'.ref
  buffer : ∀ a, readByte s a = readByte s' a

namespace SameFrameInputs

variable {s s' : State}

theorem frameProjNat_eq (h : SameFrameInputs s s') : frameProjNat s = frameProjNat s' := by
  funext i
  rw [frameProjNat, sampleNat, h.buffer, h.buffer, frameProjNat, sampleNat]

theorem projOf_eq (h : SameFrameInputs s s') : projOf s = projOf s' := by
  simp only [projOf, readPair, h.buffer]

theorem loweredRef_eq (h : SameFrameInputs s s') : loweredRef s = loweredRef s' := by
  rw [loweredRef, h.ref, h.projOf_eq, loweredRef]

theorem finalisedRef_eq (h : SameFrameInputs s s') : finalisedRef s = finalisedRef s' := by
  rw [finalisedRef, h.cfg, h.loweredRef_eq, finalisedRef]

/-- A live frame presents the same command from both states. -/
theorem frmDispatch_cmd_armed (h : SameFrameInputs s s') (hp : s.phase = .armed) :
    (frmDispatch s).cmd = (frmDispatch s').cmd := by
  have hcommand := (frmDispatch_command_armed hp).2
  rw [h.cfg, h.ref, h.frameProjNat_eq] at hcommand
  exact hcommand.unique (frmDispatch_command_armed (h.phase ▸ hp)).2

end SameFrameInputs

/-- Settles O40: each outcome is made of the five inputs, and the command of a live frame is the only one that its
candidates allow. -/
theorem dispatchIsPureFunction : Obligations.DispatchIsPureFunction := by
  intro s s' t t' hcfg hphase hfc href hbuffer ht ht'
  have h : SameFrameInputs s s' := ⟨hcfg, hphase, hfc, href, hbuffer⟩
  obtain ⟨⟨-, hcv⟩, rfl⟩ := exec_next_iff.mp ht
  obtain ⟨⟨-, hcv'⟩, rfl⟩ := exec_next_iff.mp ht'
  simp only [effectOf]
  cases hp : s.phase with
  | warmingUp =>
    have hp' : s'.phase = .warmingUp := hphase ▸ hp
    by_cases hlast : (s.fc + 1).toNat = s.cfg.warmupFrames
    · rw [frmDispatch_arming_eq hp hlast, frmDispatch_arming_eq hp' (hfc ▸ hcfg ▸ hlast)]
      exact ⟨rfl, congrArg (· + 1) hfc, h.finalisedRef_eq, rfl, fun _ => rfl⟩
    · rw [frmDispatch_warmup hp hlast, frmDispatch_warmup hp' (hfc ▸ hcfg ▸ hlast)]
      exact ⟨hphase, congrArg (· + 1) hfc, h.loweredRef_eq, hcv.trans hcv'.symm,
        fun hpending => by simp [hcv] at hpending⟩
  | armed =>
    have hp' : s'.phase = .armed := hphase ▸ hp
    obtain ⟨href₁, hfc₁, hphase₁⟩ := frmDispatch_frozen hp
    obtain ⟨href₂, hfc₂, hphase₂⟩ := frmDispatch_frozen hp'
    obtain ⟨hcv₁, -⟩ := frmDispatch_command_armed hp
    obtain ⟨hcv₂, -⟩ := frmDispatch_command_armed hp'
    exact ⟨hphase₁.trans hphase₂.symm, by rw [hfc₁, hfc₂, hfc], by rw [href₁, href₂, href], hcv₁.trans hcv₂.symm,
      fun _ => h.frmDispatch_cmd_armed hp⟩

end Sys2Proof.Machine
end

section
/-! SUPPORT. The commands of a session (spec/45_pipeline.md R202): one for each frame from the arming frame on. -/

namespace Sys2Proof.Machine

/-! ### The commands of a byte stream in pieces -/

/-- What one byte adds to the commands recorded. -/
theorem runBytes_single_commands (s : State) (b : Byte) : (runBytes s [b]).2 =
    if (advance s (.byte b)).cv then [(advance s (.byte b)).cmd] else [] := by
  simp only [runBytes]
  split <;> rfl

theorem runBytes_cons_commands (s : State) (b : Byte) (bs : List Byte) :
    (runBytes s (b :: bs)).2 = (runBytes s [b]).2 ++ (runBytes (runBytes s [b]).1 bs).2 := by
  simp only [runBytes]
  split <;> rfl

/-- A longer stream records the commands of its beginning first. -/
theorem runBytes_append_commands (s : State) (as bs : List Byte) :
    (runBytes s (as ++ bs)).2 = (runBytes s as).2 ++ (runBytes (runBytes s as).1 bs).2 := by
  induction as generalizing s with
  | nil => rfl
  | cons a as ih =>
    rw [List.cons_append, runBytes_cons_commands, ih, runBytes_cons_commands s a as, runBytes_cons_final s a as,
      List.append_assoc]

/-! ### The commands of a session -/

namespace SessionAfter

variable {cfg : Config} {frames : List (SampleIdx → Nat)} {s : State}

/-- The frame after `frames` presents a command exactly when it is the `WARMUP_FRAMES`-th or a later one. -/
theorem frmDispatch_cv (h : SessionAfter cfg frames s) :
    (Machine.frmDispatch s).cv = decide (cfg.warmupFrames ≤ frames.length + 1) := by
  rcases Nat.lt_or_ge frames.length cfg.warmupFrames with hlt | hge
  · have hp := (h.warming hlt).1
    have hcount := h.count_succ hlt
    rcases Nat.lt_or_eq_of_le hlt with hinside | hlast
    · rw [frmDispatch_warmup hp (by rw [hcount, h.config]; exact hinside.ne), decide_eq_false (Nat.not_le.mpr hinside)]
      exact h.awaited.2
    · rw [frmDispatch_arming_eq hp (by rw [hcount, h.config, ← hlast]), decide_eq_true hlast.ge]
  · rw [(frmDispatch_command_armed (h.armed hge).1).1, decide_eq_true (Nat.le_succ_of_le hge)]

/-- A byte that does not complete a frame records no command. -/
theorem commands_byte_inside (h : SessionAfter cfg frames s) (hne : ¬ (s.mp = 6 ∧ s.pcnt = 195)) (b : Byte) :
    (runBytes s [b]).2 = [] := by
  have hs := h.awaited
  rw [runBytes_single_commands, if_neg]
  by_cases hmp : s.mp = 6
  · rw [advance_byte_put b hs hmp fun hp => hne ⟨hmp, hp⟩]
    simp [hs.2]
  · rw [advance_byte_hunting b hs hmp]
    simp [huntByte, hs.2]

/-- The byte that completes the frame after `frames` records a command from the `WARMUP_FRAMES`-th frame on. -/
theorem length_commands_byte_last (h : SessionAfter cfg frames s) (hmp : s.mp = 6) (hp : s.pcnt = 195) (b : Byte) :
    (runBytes s [b]).2.length = if cfg.warmupFrames ≤ frames.length + 1 then 1 else 0 := by
  have hcomplete : SessionAfter cfg frames (completeFrame b s) := h.of_kept h.awaited rfl rfl rfl rfl
  rw [runBytes_single_commands, advance_byte_last b h.awaited hmp hp, hcomplete.frmDispatch_cv, apply_ite List.length]
  simp

/-- The commands a byte stream records, counted with those that the session's earlier frames have recorded. -/
theorem length_commands (h : SessionAfter cfg frames s) (bytes : List Byte) :
    (frames.length + 1 - cfg.warmupFrames) + (runBytes s bytes).2.length =
      (frames.length + (completedFrames s bytes).length) + 1 - cfg.warmupFrames := by
  induction bytes generalizing frames s with
  | nil => rfl
  | cons b bs ih =>
    rw [runBytes_cons_commands, List.length_append, completedFrames]
    by_cases hlast : s.mp = 6 ∧ s.pcnt = 195
    · have hrest := ih (h.byte_last hlast.1 hlast.2 b)
      rw [List.length_append, List.length_singleton] at hrest
      rw [if_pos hlast, List.length_cons, h.length_commands_byte_last hlast.1 hlast.2]
      split <;> omega
    · rw [if_neg hlast, h.commands_byte_inside hlast, List.length_nil, Nat.zero_add]
      exact ih (h.byte_inside hlast b)

end SessionAfter

/-- Settles O60: the count holds from the reset on, where no frame is completed, and the commands of a beginning of the
stream come first. -/
theorem commandsPerSession : Obligations.CommandsPerSession := by
  intro s u bytes more hreset
  obtain ⟨-, rfl⟩ := exec_next_iff.mp hreset
  rw [effectOf]
  have hcount : (runBytes (resetState s) bytes).2.length =
      (completedFrames (resetState s) bytes).length + 1 - s.cfg.warmupFrames := by
    have hsession := (SessionAfter.resetState s).length_commands bytes
    have hpos := s.cfg.warmup_pos
    rw [List.length_nil] at hsession
    omega
  refine ⟨hcount, ?_⟩
  rw [runBytes_append_commands, List.take_left' hcount]

end Sys2Proof.Machine
end

section
/-! SUPPORT. Admission and the step (spec/45_pipeline.md R196, R197, R208), and what the sink's answer and the errors
leave unchanged (R204; spec/60_exceptions.md R230). -/

namespace Sys2Proof.Machine

/-! ### Admission and the step -/

@[simp] theorem selArgmin_offers (s : State) : (selArgmin s).offers = s.offers := by rw [selArgmin_frame]
@[simp] theorem calFin_offers (i : SampleIdx) (s : State) : (calFin i s).offers = s.offers := by rw [calFin_frame]

/-- What is on offer is the environment's: no operation writes it (10_state.md R33). -/
@[simp] theorem effectOf_offers (i : Instr) (s : State) : (effectOf i s).offers = s.offers := by
  cases i with
  | payLast b => rw [effectOf, frmDispatch_offers, completeFrame_offers]
  | frmDispatch => exact frmDispatch_offers s
  | selArgmin => exact selArgmin_offers s
  | calFin j => exact calFin_offers j s
  | _ => rfl

@[simp] theorem advance_offers (s : State) (e : InEvent) : (advance s e).offers = s.offers := by
  cases h : admits s e with
  | false => rw [advance_held h]
  | true => rw [advance_admitted h, effectOf_offers]

/-- An offer that is not admitted is not the one a step consumes. -/
theorem step_keeps_held_offer {s t : State} {e : InEvent} (hmem : e ∈ s.offers) (held : admits s e = false)
    (h : step s = .next t) : e ∈ t.offers := by
  rcases step_advance_split h with rfl | ⟨d, before, after, hoffers, hadm, rfl⟩
  · exact hmem
  · have hne : e ≠ d := by
      rintro rfl
      rw [held] at hadm
      cases hadm
    rw [hoffers] at hmem
    rw [advance_offers]
    simpa [hne] using hmem

/-- Settles O8: admission tests the two registers, and a step consumes no event that is not admitted. -/
theorem admissionOfEvents : Obligations.AdmissionOfEvents :=
  ⟨fun _ => rfl, fun s _ => awaitsSource_iff s, awaitsSource_iff, awaitsSource_iff, awaitsSink_iff, awaitsSink_iff,
    fun _ _ => eventStep_held, fun _ _ _ => step_keeps_held_offer⟩

/-- The oldest admitted offer is the one that is taken, and every other stays in its place. -/
theorem takeAdmitted_oldest {p : InEvent → Bool} {before : List InEvent} {e : InEvent} (after : List InEvent)
    (hbefore : ∀ x ∈ before, p x = false) (he : p e = true) :
    takeAdmitted p (before ++ e :: after) = some (e, before ++ after) := by
  induction before with
  | nil => rw [List.nil_append, takeAdmitted, if_pos he, List.nil_append]
  | cons d before ih =>
    obtain ⟨hd, hbefore⟩ := List.forall_mem_cons.mp hbefore
    rw [List.cons_append, takeAdmitted, hd, ih hbefore]
    rfl

/-- Settles O9: the step takes the oldest admitted offer, whose operation the decoder reads from the same registers. -/
theorem stepRunsDecodedOperation : Obligations.StepRunsDecodedOperation := by
  refine ⟨fun s e before after i hoffers hbefore he hdecode => ?_, fun s hnone => ?_⟩
  · have hi : selectEvent s.mp s.pcnt e = i := Except.ok.inj hdecode
    have hnext : nextOffer s = some (e, before ++ after) := by
      rw [nextOffer, hoffers, takeAdmitted_oldest after hbefore he]
    rw [step, hnext, ← hi]
    exact eventStep_admitted ((admit_offers ..).trans he)
  · have hnext : nextOffer s = none := takeAdmitted_none.mpr hnone
    rw [step, hnext]

/-! ### The sink's answer and the errors -/

/-- Settles O43: SNK.ACK is selected where the sink is awaited. -/
theorem ackClearsPending : Obligations.AckClearsPending := fun _ hs => exec_selected (i := .snkAck) hs

/-- Settles O45: the three errors of the byte source are `raise` alone, SNK.FAIL and SNK.ACK clear `cv`. -/
theorem errorFrame : Obligations.ErrorFrame := by
  intro i s t hi h
  obtain ⟨-, rfl⟩ := exec_next_iff.mp h
  cases i with
  | errEos | errShort | errIo => exact ⟨rfl, fun _ _ => rfl, fun hne => Instr.noConfusion hne, fun _ => rfl⟩
  | snkFail => exact ⟨rfl, fun hne => absurd rfl hne, fun hne => Instr.noConfusion hne, fun _ => rfl⟩
  | snkAck => exact ⟨rfl, fun _ hne => absurd rfl hne, fun _ => ⟨rfl, rfl, rfl⟩, fun _ => rfl⟩
  | _ => simp at hi

end Sys2Proof.Machine
end

section
/-! PROOF. What the four error operations write (spec/60_exceptions.md R222 to R225, R230). -/

namespace Sys2Proof.Machine

/-- Settles O44: each operation is selected under its rule's precondition, and its effect is `raise` with the error kind
and the cause of R221's table, after SNK.FAIL has given up the command. -/
theorem errorsHaltWithCodes : Obligations.ErrorsHaltWithCodes := by
  refine ⟨fun s hs hmp => ?eos, fun s hs hmp => ?short, fun s hs => ?io, fun s hs => ?fail⟩
  case eos => exact exec_selected (i := .errEos) ⟨hs, hmp⟩
  case short => exact exec_selected (i := .errShort) ⟨hs, hmp⟩
  case io => exact exec_selected (i := .errIo) hs
  case fail => exact exec_selected (i := .snkFail) hs

end Sys2Proof.Machine
end

section
/-! SUPPORT. A frame received with its ignored bits (spec/41_decoder.md R133; spec/70_reset_and_hazards.md R277): frame
dispatch looks at the buffer through the samples alone, and `run_bytes` (spec/45_pipeline.md R199) consumes the bytes of
a frame as the steps on offered bytes do. -/

namespace Sys2Proof.Machine

/-! ### What frame dispatch looks at -/

/-- Two states that may differ in the raw bytes of the buffer and in what is on offer, and have the same samples. -/
structure SameSamples (s t : State) : Prop where
  rest : t = { s with fb := t.fb, offers := t.offers }
  samples : ∀ i, sampleNat t i = sampleNat s i

namespace SameSamples

variable {s t : State}

theorem with_offers (s : State) (l : List InEvent) : SameSamples s { s with offers := l } := ⟨rfl, fun _ => rfl⟩

theorem cfg_eq (h : SameSamples s t) : t.cfg = s.cfg := by rw [h.rest]
theorem phase_eq (h : SameSamples s t) : t.phase = s.phase := by rw [h.rest]
theorem fc_eq (h : SameSamples s t) : t.fc = s.fc := by rw [h.rest]
theorem ref_eq (h : SameSamples s t) : t.ref = s.ref := by rw [h.rest]

theorem frameProjNat_eq (h : SameSamples s t) : frameProjNat t = frameProjNat s := by
  funext i
  rw [frameProjNat, h.samples, frameProjNat]

theorem projOf_eq (h : SameSamples s t) : projOf t = projOf s := by
  refine Vector.ext fun i hi => BitVec.eq_of_toNat_eq ?_
  have hdist := congrFun h.frameProjNat_eq ⟨i, hi⟩
  rwa [← projOf_toNat, ← projOf_toNat] at hdist

theorem loweredRef_eq (h : SameSamples s t) : loweredRef t = loweredRef s := by
  rw [loweredRef, h.ref_eq, h.projOf_eq, loweredRef]

theorem finalisedRef_eq (h : SameSamples s t) : finalisedRef t = finalisedRef s := by
  rw [finalisedRef, h.cfg_eq, h.loweredRef_eq, finalisedRef]

/-- A live frame presents the same command from both states. -/
theorem frmDispatch_cmd_armed (h : SameSamples s t) (hp : s.phase = .armed) :
    (frmDispatch t).cmd = (frmDispatch s).cmd := by
  have hcommand := (frmDispatch_command_armed (h.phase_eq.trans hp)).2
  rw [h.cfg_eq, h.ref_eq, h.frameProjNat_eq] at hcommand
  exact hcommand.unique (frmDispatch_command_armed hp).2

/-- The same samples lead to the same outcome of a frame. -/
theorem frmDispatch_eq (h : SameSamples s t) :
    frmDispatch t = { frmDispatch s with fb := t.fb, offers := t.offers } := by
  cases hp : s.phase with
  | warmingUp =>
    have hpt := h.phase_eq.trans hp
    have hlast : (t.fc + 1).toNat = t.cfg.warmupFrames ↔ (s.fc + 1).toNat = s.cfg.warmupFrames := by
      rw [h.fc_eq, h.cfg_eq]
    by_cases harming : (s.fc + 1).toNat = s.cfg.warmupFrames
    · rw [frmDispatch_arming_eq hpt (hlast.mpr harming), frmDispatch_arming_eq hp harming, h.finalisedRef_eq, h.rest]
    · rw [frmDispatch_warmup hpt (mt hlast.mp harming), frmDispatch_warmup hp harming, h.loweredRef_eq, h.rest]
  | armed =>
    rw [frmDispatch_live_frame (h.phase_eq.trans hp), frmDispatch_live_frame hp, h.frmDispatch_cmd_armed hp, h.rest]

theorem sameButBuffer_frmDispatch (h : SameSamples s t) (hoffers : t.offers = s.offers) :
    SameButBuffer (frmDispatch s) (frmDispatch t) := by
  rw [SameButBuffer, h.frmDispatch_eq, hoffers, ← frmDispatch_offers s]

end SameSamples

/-! ### Steps on offered bytes and `run_bytes` -/

theorem frmDispatch_with_offers (s : State) (l : List InEvent) :
    frmDispatch { s with offers := l } = { frmDispatch s with offers := l } := by
  rw [(SameSamples.with_offers s l).frmDispatch_eq, ← frmDispatch_fb s]

/-- What is on offer behind a byte has no part in what the byte does (10_state.md R33). -/
theorem advance_byte_with_offers {s : State} (hs : SourceAwaited s) (l : List InEvent) (b : Byte) :
    advance { s with offers := l } (.byte b) = { advance s (.byte b) with offers := l } := by
  have hs' : SourceAwaited { s with offers := l } := hs
  by_cases hmp : s.mp = 6
  · by_cases hp : s.pcnt = 195
    · rw [advance_byte_last b hs' hmp hp, advance_byte_last b hs hmp hp]
      exact frmDispatch_with_offers (completeFrame b s) l
    · rw [advance_byte_put b hs' hmp hp, advance_byte_put b hs hmp hp]
      rfl
  · rw [advance_byte_hunting b hs' hmp, advance_byte_hunting b hs hmp]
    rfl

/-- While a command is pending, bytes on offer stay there (20_memory.md R60, item 3). -/
theorem coreRun_pending {s : State} (hcv : s.cv = true) (bytes : List Byte) (n : Nat) :
    Host.Core.run Sys2Proof.core n ({ s with offers := bytes.map .byte } : State) =
      .next ({ s with offers := bytes.map .byte } : State) := by
  have hwait : step { s with offers := bytes.map .byte } = .next { s with offers := bytes.map .byte } :=
    stepRunsDecodedOperation.2 _ fun e he => by
      obtain ⟨b, -, rfl⟩ := List.mem_map.mp he
      exact (admit_offers ..).trans (admits_source_of_pending hcv rfl)
  induction n with
  | zero => rfl
  | succ n ih => exact (coreRun_succ (M := Sys2Proof.core) hwait n).trans ih

/-- The command that a state presents, if it does, is recorded and acknowledged (45_pipeline.md R199). -/
def acknowledged (s : State) : State × List Byte := ({ s with cv := false }, if s.cv then [s.cmd] else [])

theorem acknowledged_of_not_cv {s : State} (h : s.cv = false) : acknowledged s = (s, []) := by
  rw [acknowledged, h, ← h, if_neg (by simp [h])]

/-- A byte, with the acknowledgement of the command it may have presented. -/
theorem runBytes_single {s : State} (hs : SourceAwaited s) (b : Byte) :
    runBytes s [b] = acknowledged (advance s (.byte b)) := by
  have hh : (advance s (.byte b)).halted = false := (advance_byte_halted s b).trans hs.1
  cases hcv : (advance s (.byte b)).cv with
  | false =>
    rw [acknowledged_of_not_cv hcv]
    simp only [runBytes, hcv, Bool.false_eq_true, if_false]
  | true => simp only [runBytes, acknowledged, hcv, if_true, advance_sinkAck hh hcv]

/-- Where a run of steps consumes all bytes on offer, `run_bytes` ends in its last state, acknowledged. -/
theorem runBytes_of_coreRun {s t : State} (hs : SourceAwaited s) {bytes : List Byte}
    (hrun : Host.Core.run Sys2Proof.core bytes.length ({ s with offers := bytes.map .byte } : State) = .next t)
    (hconsumed : t.offers = []) : runBytes s bytes = acknowledged { t with offers := s.offers } := by
  induction bytes generalizing s with
  | nil =>
    obtain rfl : { s with offers := [] } = t := Host.Outcome.next.inj hrun
    exact (acknowledged_of_not_cv hs.2).symm
  | cons b bs ih =>
    have hstep := step_byte hs b (bs.map .byte)
    rw [advance_byte_with_offers hs] at hstep
    have hrest := (coreRun_succ (M := Sys2Proof.core) hstep bs.length).symm.trans hrun
    cases hcv : (advance s (.byte b)).cv with
    | false =>
      have hs' : SourceAwaited (advance s (.byte b)) := ⟨(advance_byte_halted s b).trans hs.1, hcv⟩
      have hrecorded := ih hs' hrest
      rw [advance_offers] at hrecorded
      rw [← hrecorded]
      simp only [runBytes, hcv, Bool.false_eq_true, if_false]
    | true =>
      have hlast := Host.Outcome.next.inj ((coreRun_pending hcv bs bs.length).symm.trans hrest)
      obtain rfl : bs = [] := List.map_eq_nil_iff.mp ((congrArg State.offers hlast).trans hconsumed)
      rw [runBytes_single hs, ← hlast, ← advance_offers s (.byte b)]

/-! ### A frame -/

/-- The bytes of a frame from `mp = 0`: frame dispatch runs on a buffer that holds the samples, and its command is
acknowledged. -/
theorem runBytes_frameBytes {s : State} (hs : SourceAwaited s) (hmp : s.mp = 0) (hwf : s.fb.wf = true)
    (v : SampleIdx → Sample) (ign : SampleIdx → BitVec 3) : ∃ u : State,
      u = { s with fb := u.fb, pcnt := 0 } ∧ (∀ i, sampleNat u i = (v i).toNat) ∧
      runBytes s (frameBytes v ign) = acknowledged (frmDispatch u) := by
  obtain ⟨u, hrun, hframe, hholds⟩ := run_payload (s := { s with mp := 6, pcnt := 0 }) hs rfl rfl hwf
    (length_payloadBytes v ign) []
  have hlen : (frameBytes v ign).length = sigTable.length + 196 := by
    rw [frameBytes, List.length_append, length_payloadBytes]
  have hsteps : Host.Core.run Sys2Proof.core (frameBytes v ign).length
      ({ s with offers := (frameBytes v ign).map .byte } : State) = .next (frmDispatch u) := by
    rw [List.append_nil] at hrun
    rw [hlen, frameBytes, List.map_append, coreRun_add (Consumes.signature hs hmp _)]
    exact hrun
  refine ⟨{ u with offers := s.offers }, ?_, hholds.sampleNat, ?_⟩
  · rw [hframe, ← hmp]
  · rw [runBytes_of_coreRun hs hsteps (by rw [frmDispatch_offers, hframe]), frmDispatch_with_offers u s.offers]

theorem SameButBuffer.acknowledged {s t : State} (h : SameButBuffer s t) :
    (acknowledged s).2 = (acknowledged t).2 ∧ SameButBuffer (acknowledged s).1 (acknowledged t).1 := by
  rw [← h]
  exact ⟨rfl, rfl⟩

/-- Settles O57: the buffers of both frames hold the same samples, and frame dispatch looks at nothing else of them. -/
theorem ignoredBitsReachNothing : Obligations.IgnoredBitsReachNothing := by
  intro s v ign ign' hs hmp hwf
  obtain ⟨u, hu, hsamples, hrun⟩ := runBytes_frameBytes hs hmp hwf v ign
  obtain ⟨u', hu', hsamples', hrun'⟩ := runBytes_frameBytes hs hmp hwf v ign'
  have hsame : SameSamples u u' := ⟨by rw [hu, hu'], fun i => (hsamples' i).trans (hsamples i).symm⟩
  rw [hrun, hrun']
  exact (hsame.sameButBuffer_frmDispatch (by rw [hu, hu'])).acknowledged

end Sys2Proof.Machine
end

section
/-! PROOF. The start of a session (spec/70_reset_and_hazards.md R260; spec/10_state.md R36). -/

namespace Sys2Proof.Machine

/-- Settles O47: RESET is selected in every state, its effect is `resetState`, and the event runs it. -/
theorem resetStartsSession : Obligations.ResetStartsSession := fun s =>
  ⟨resetState s, exec_selected (i := .reset) trivial, by rw [eventStep_advance, advance_reset],
    rfl, rfl, rfl, rfl, fun _ => Vector.getElem_replicate _, rfl, rfl, rfl, rfl, rfl, rfl, rfl, fun _ => rfl, rfl⟩

end Sys2Proof.Machine
end
